-- ==== Sys2Proof/Word.lean ====
section
/-! DEFINITION. The words of BCENC: the 32-bit command word, the 8-bit sample, the three
channels and a value per channel (00_scope.md rules R4 and R7). -/

namespace Sys2Proof

/-- A command word, `CMD_W` = 32 bits (rule R4, R45). -/
abbrev Word := BitVec 32

/-- One sample of one channel, `SAMPLE_W` = 8 bits (rule R4). -/
abbrev Byte := BitVec 8

/-- The three byte lanes of the sample buffer (glossary "channel"; `NCHAN` = 3, rule R4). -/
inductive Channel where
  | c0
  | c1
  | c2
  deriving DecidableEq, Repr

/-- One value for each channel. With bytes it is the spec's 3-vector `(c0, c1, c2)` (rule R7). -/
structure Triple (α : Type) where
  c0 : α
  c1 : α
  c2 : α
  deriving DecidableEq, Repr

/-- Component `v.c` of a 3-vector (rule R7). -/
def Triple.get {α : Type} (v : Triple α) : Channel → α
  | .c0 => v.c0
  | .c1 => v.c1
  | .c2 => v.c2

/-- The same triple with component `c` replaced. -/
def Triple.set {α : Type} (v : Triple α) (c : Channel) (x : α) : Triple α :=
  match c with
  | .c0 => { v with c0 := x }
  | .c1 => { v with c1 := x }
  | .c2 => { v with c2 := x }

/-- A colour: a 3-vector of bytes (rule R7). -/
abbrev Colour := Triple Byte

/-- `BLOCK_N` = 16 samples per block, in row-major order (rule R4, glossary "Sample Block"). -/
abbrev Block (α : Type) := Vector α 16

end Sys2Proof
end

