-- ==== Sys2Proof/Syntax.lean ====
section
/-! DEFINITION. The commands of BCENC, one constructor per row of spec/opcode_table.json
(30_encoding.md rule R47), and the lines of its assembler (rules R51, R52). -/

namespace Sys2Proof

/-- A command. Operands are the unsigned fields of the word (rule R46). -/
inductive Instr where
  /-- `NOP`, opcode 0x0, rule R90. -/
  | nop
  /-- `CLR`, opcode 0x1, rule R91. -/
  | clr
  /-- `PUSH ch, v`, opcode 0x2, rule R92. `ch` is the field `cmd[25:24]`; 3 is not a channel. -/
  | push (ch : BitVec 2) (v : Byte)
  /-- `PUSHV c0, c1, c2`, opcode 0x3, rule R93. -/
  | pushv (c0 c1 c2 : Byte)
  /-- `ENC4`, opcode 0x4, rule R103. -/
  | enc4
  /-- `ENC5`, opcode 0x5, rule R104. -/
  | enc5
  /-- `ENC7`, opcode 0x7, rule R120. -/
  | enc7
  /-- `CLRF`, opcode 0x8, rule R94. -/
  | clrf
  deriving DecidableEq, Repr

/-- One line of the assembler with its operands as the numbers written (rule R51), and the two
pseudo-instructions (rule R52). -/
inductive AsmLine where
  | nop
  | clr
  | push (ch v : Nat)
  | pushv (c0 c1 c2 : Nat)
  | enc4
  | enc5
  | enc7
  | clrf
  /-- `LOAD1 ch, v0, ..., v15` -/
  | load1 (ch : Nat) (vs : Block Nat)
  /-- `LOAD3 (r0,g0,b0), ..., (r15,g15,b15)` -/
  | load3 (vs : Block (Triple Nat))
  deriving DecidableEq, Repr

end Sys2Proof
end

