-- ==== Sys2Proof/WellFormed.lean ====
section
/-! DEFINITION. Which terms of `Instr` are commands. -/

namespace Sys2Proof

/-- A term of `Instr` is a command unless it is a `PUSH` to channel 3, which rule R49 makes an
illegal word. Every other operand value is admitted (rule R46). -/
def Instr.wellFormed : Instr → Bool
  | .nop => true
  | .clr => true
  | .push ch _ => ch != 3#2
  | .pushv _ _ _ => true
  | .enc4 => true
  | .enc5 => true
  | .enc7 => true
  | .clrf => true

end Sys2Proof
end

