-- ==== Sys2Proof/Decode.lean ====
section
/-! DEFINITION. Decoding and encoding of command words (30_encoding.md Part A), and the assembler
(rules R51, R52). Decoding depends on the word alone and is total (rule R48). -/

namespace Sys2Proof

/-! ### The fields of a word (rule R45) -/

/-- The opcode `OP = cmd[31:28]`. -/
def opField (w : Word) : BitVec 4 := w.extractLsb' 28 4

/-- `cmd[27:0]`, reserved in format Z. -/
def zReserved (w : Word) : BitVec 28 := w.extractLsb' 0 28

/-- `cmd[27:26]`, reserved in format P. -/
def pReservedHigh (w : Word) : BitVec 2 := w.extractLsb' 26 2

/-- `cmd[23:8]`, reserved in format P. -/
def pReservedLow (w : Word) : BitVec 16 := w.extractLsb' 8 16

/-- `CH = cmd[25:24]` (rule R46). -/
def chField (w : Word) : BitVec 2 := w.extractLsb' 24 2

/-- `cmd[27:24]`, reserved in format V. -/
def vReserved (w : Word) : BitVec 4 := w.extractLsb' 24 4

/-- `V = C0 = cmd[7:0]` (rule R46). -/
def byte0Field (w : Word) : Byte := w.extractLsb' 0 8

/-- `C1 = cmd[15:8]` (rule R46). -/
def byte1Field (w : Word) : Byte := w.extractLsb' 8 8

/-- `C2 = cmd[23:16]` (rule R46). -/
def byte2Field (w : Word) : Byte := w.extractLsb' 16 8

/-! ### Decoding -/

/-- Why a word is illegal (rule R49). -/
inductive Illegal where
  /-- `OP` is 0x6 or 0x9..0xF. -/
  | reservedOpcode
  /-- A bit that the word's format reserves is 1. -/
  | reservedBits
  /-- A `PUSH` with `CH = 3` and its reserved bits zero. -/
  | noSuchChannel
  deriving DecidableEq, Repr

/-- Format Z: the command has no operand and `cmd[27:0]` must be zero. -/
def decodeZ (w : Word) (i : Instr) : Except Illegal Instr :=
  if zReserved w = 0#28 then .ok i else .error .reservedBits

/-- Format P, used by `PUSH`. -/
def decodeP (w : Word) : Except Illegal Instr :=
  if pReservedHigh w = 0#2 ∧ pReservedLow w = 0#16 then
    if chField w = 3#2 then .error .noSuchChannel else .ok (.push (chField w) (byte0Field w))
  else .error .reservedBits

/-- Format V, used by `PUSHV`. -/
def decodeV (w : Word) : Except Illegal Instr :=
  if vReserved w = 0#4 then .ok (.pushv (byte0Field w) (byte1Field w) (byte2Field w))
  else .error .reservedBits

/-- The command a word is, or the reason it is illegal (rules R47, R48, R49). -/
def decode (w : Word) : Except Illegal Instr :=
  match (opField w).toNat with
  | 0x0 => decodeZ w .nop
  | 0x1 => decodeZ w .clr
  | 0x2 => decodeP w
  | 0x3 => decodeV w
  | 0x4 => decodeZ w .enc4
  | 0x5 => decodeZ w .enc5
  | 0x7 => decodeZ w .enc7
  | 0x8 => decodeZ w .clrf
  | _ => .error .reservedOpcode

/-! ### Encoding -/

/-- A word of format Z (rule R45). -/
def encodeZ (op : BitVec 4) : Word := op ++ 0#28

/-- The word of a command (rules R45, R47, R51). -/
def encode : Instr → Word
  | .nop => encodeZ 0x0#4
  | .clr => encodeZ 0x1#4
  | .push ch v => 0x2#4 ++ 0#2 ++ ch ++ 0#16 ++ v
  | .pushv c0 c1 c2 => 0x3#4 ++ 0#4 ++ c2 ++ c1 ++ c0
  | .enc4 => encodeZ 0x4#4
  | .enc5 => encodeZ 0x5#4
  | .enc7 => encodeZ 0x7#4
  | .clrf => encodeZ 0x8#4

/-! ### The host's question about one row of the table -/

/-- The word whose low `nbits` bits are those of `w` and whose other bits are zero. A command is one
32-bit value with no byte order of its own (rules R30, R45). -/
def tableWord (nbits w : Nat) : Word := BitVec.ofNat 32 (w % 2 ^ nbits)

/-- The command the decoder reads from a table row's bits. -/
def decodeTableWord (nbits w : Nat) : Option Instr :=
  match decode (tableWord nbits w) with
  | .ok i => some i
  | .error _ => none

/-! ### The assembler (rules R51, R52) -/

/-- A sample operand, 0 to 255; out of range it is refused (rule R51). -/
def byteOperand (n : Nat) : Option Byte :=
  if n < 256 then some (BitVec.ofNat 8 n) else none

/-- A channel operand, 0 to 2; out of range it is refused (rule R51). -/
def channelOperand (n : Nat) : Option (BitVec 2) :=
  if n < 3 then some (BitVec.ofNat 2 n) else none

/-- `PUSH ch, v` with its operands as numbers. -/
def asmPush (ch v : Nat) : Option Instr :=
  (channelOperand ch).bind fun c => (byteOperand v).map fun b => .push c b

/-- `PUSHV c0, c1, c2` with its operands as numbers. -/
def asmPushv (c0 c1 c2 : Nat) : Option Instr :=
  (byteOperand c0).bind fun b0 =>
    (byteOperand c1).bind fun b1 => (byteOperand c2).map fun b2 => .pushv b0 b1 b2

/-- The commands a line stands for, pseudo-instructions expanded in the order of rule R52; none where
an operand is out of range. -/
def AsmLine.expand : AsmLine → Option (List Instr)
  | .nop => some [.nop]
  | .clr => some [.clr]
  | .push ch v => (asmPush ch v).map fun i => [i]
  | .pushv c0 c1 c2 => (asmPushv c0 c1 c2).map fun i => [i]
  | .enc4 => some [.enc4]
  | .enc5 => some [.enc5]
  | .enc7 => some [.enc7]
  | .clrf => some [.clrf]
  | .load1 ch vs => vs.toList.mapM fun v => asmPush ch v
  | .load3 vs => vs.toList.mapM fun p => asmPushv p.c0 p.c1 p.c2

/-- The words of a line (rule R51). -/
def AsmLine.assemble (l : AsmLine) : Option (List Word) := l.expand.map fun is => is.map encode

end Sys2Proof
end

