-- ==== Sys2Proof/Config.lean ====
section
/-! DEFINITION. The configuration of an instance: the partition table, an open parameter of the
spec (00_scope.md rules R4, R5; D23), and the one value outside the domain of a datapath function.
Each is a constant without a body, so a theorem about the machine holds for every value of it. -/

namespace Sys2Proof

/-- One partition as a mask: bit `i` is `PTAB[p][i]`, the subset of pixel `i` (rule R4). -/
abbrev PartitionMask := BitVec 16

/-- Both subsets have a pixel: some bit is 0 and some bit is 1 (rule R5). -/
def maskWellFormed (m : PartitionMask) : Bool := m != 0#16 && m != BitVec.allOnes 16

/-- `1 <= NPART <= 64` and every entry is well formed (rule R5). -/
def tableWellFormed (first : PartitionMask) (rest : List PartitionMask) : Bool :=
  decide (rest.length < 64) && (first :: rest).all maskWellFormed

/-- A well-formed partition table, entry 0 first. An ill-formed one cannot be built: the refusal of
rule R5 and D28 is made when the configuration is built, never at run time. The default values only
show that such a table exists; nothing computes with them. -/
structure PartitionTable where
  first : PartitionMask := 0xCCCC#16
  rest : List PartitionMask := []
  wf : tableWellFormed first rest = true := by decide
  deriving DecidableEq, Repr, Inhabited

/-- The entries of a table in table order, `PTAB[0], PTAB[1], ...`. -/
def PartitionTable.entries (t : PartitionTable) : List PartitionMask := t.first :: t.rest

/-- `NPART` (rule R4). -/
def PartitionTable.npart (t : PartitionTable) : Nat := t.entries.length

/-- The table of this instance: OPEN in the spec (rule R4, D23), so no value is given here. DESIGN
CHOICE, log entry 4; safe: nothing can be proved of it but that it is well formed. -/
opaque Config.partitionTable : PartitionTable

/-- What `EST1` answers for an empty list, which rule R65 puts outside its domain. No command reaches
it. DESIGN CHOICE, log entry 5; safe: the value is free. -/
opaque Config.estimateOfNoSamples : Byte × Byte

end Sys2Proof
end

