-- ==== Sys2Proof/Machine/Arith.lean ====
section
/-! DEFINITION. The arithmetic shared by the datapath (00_scope.md rule R7): all of it exact, on
unbounded integers, with one rounded division. -/

namespace Sys2Proof.Machine

/-- `clamp255(v)` (rule R7). -/
def clamp255 (v : Int) : Int := if v < 0 then 0 else if 255 < v then 255 else v

/-- `rnd(num / den)`, to the nearest integer with a tie going up, for `den > 0` (rules R70, R76). The
division is floor division. -/
def roundDiv (num den : Int) : Int := (2 * num + den) / (2 * den)

/-- The quotient `num / den` rounded and saturated to a byte (rules R71, R76). -/
def roundToByte (num den : Int) : Byte := BitVec.ofInt 8 (clamp255 (roundDiv num den))

end Sys2Proof.Machine
end

