-- ==== Sys2Proof/Machine/Estimator.lean ====
section
/-! DEFINITION. The endpoint estimator `EST1`, `EST3` (40_estimator.md). -/

namespace Sys2Proof.Machine

/-- Inserts a value into a strictly ascending list, once. -/
def insertDistinct (x : Nat) : List Nat → List Nat
  | [] => [x]
  | y :: ys =>
    if x < y then x :: y :: ys else if x = y then y :: ys else y :: insertDistinct x ys

/-- The distinct values of a list in ascending order, `u` of rule R66. -/
def sortDistinct (xs : List Nat) : List Nat := xs.foldr insertDistinct []

/-- `sum of (j + k) * u[k]` over the list; with `j = 0` it is `Sxy` of rule R68. -/
def rankSum (j : Nat) : List Nat → Nat
  | [] => 0
  | y :: ys => j * y + rankSum (j + 1) ys

/-- `Q = n * (n + 1)` (rule R69). -/
def fitQ (u : List Nat) : Int := (u.length : Int) * (u.length + 1)

/-- `N0 = 2 * (2n - 1) * Sy - 6 * Sxy`: the line at index 0 is `N0 / Q` (rule R69). -/
def fitN0 (u : List Nat) : Int := 2 * (2 * u.length - 1) * (u.sum : Nat) - 6 * (rankSum 0 u : Nat)

/-- `N1 = 6 * Sxy - 2 * (n - 2) * Sy`: the line at index `n-1` is `N1 / Q` (rule R69). -/
def fitN1 (u : List Nat) : Int := 6 * (rankSum 0 u : Nat) - 2 * (u.length - 2) * (u.sum : Nat)

/-- The endpoints fitted to the distinct ascending values `u` (rules R67, R70, R71). -/
def fitDistinct (u : List Nat) : Byte × Byte :=
  match u with
  | [] => Config.estimateOfNoSamples
  | [v] => (BitVec.ofNat 8 v, BitVec.ofNat 8 v)
  | _ :: _ :: _ => (roundToByte (fitN0 u) (fitQ u), roundToByte (fitN1 u) (fitQ u))

/-- `EST1(V)` (rules R65 to R71). -/
def est1 (V : List Byte) : Byte × Byte := fitDistinct (sortDistinct (V.map BitVec.toNat))

/-- Channel `c` of a list of colours. -/
def lane (c : Channel) (P : List Colour) : List Byte := P.map fun p => p.get c

/-- `EST3(P)`: each channel is fitted on its own (rule R73). -/
def est3 (P : List Colour) : Colour × Colour :=
  let f0 := est1 (lane .c0 P)
  let f1 := est1 (lane .c1 P)
  let f2 := est1 (lane .c2 P)
  (⟨f0.1, f1.1, f2.1⟩, ⟨f0.2, f1.2, f2.2⟩)

end Sys2Proof.Machine
end

