-- ==== Sys2Proof/Machine/Palette.lean ====
section
/-! DEFINITION. The palette expander `EXPAND1`, `EXPAND3` (41_palette_index.md rules R75 to R80). -/

namespace Sys2Proof.Machine

/-- The level count `L` (rule R75). -/
inductive Levels where
  | four
  | six
  | eight
  deriving DecidableEq, Repr

/-- `L` as a number. -/
def levelCount : Levels → Nat
  | .four => 4
  | .six => 6
  | .eight => 8

/-- A palette: at least one entry, `P[0]` first (rule R81, `len(P) >= 1`). -/
structure Palette (α : Type) where
  first : α
  others : List α
  deriving DecidableEq, Repr

/-- The entries `P[0], P[1], ...` of a palette. -/
def paletteEntries {α : Type} (P : Palette α) : List α := P.first :: P.others

/-- The step `t_j = rnd(((L-1-j) * a + j * b) / (L-1))` (rules R75, R76). -/
def paletteStep (a b : Byte) (L : Levels) (j : Nat) : Byte :=
  roundToByte (((levelCount L : Int) - 1 - j) * (a.toNat : Int) + j * (b.toNat : Int))
    ((levelCount L : Int) - 1)

/-- The anchors 0 and 255, which a 6-level palette has as entries 6 and 7 (rule R78). -/
def anchors : Levels → List Byte
  | .four => []
  | .six => [0#8, 255#8]
  | .eight => []

/-- `EXPAND1(a, b, L)`: entries 0 and 1 are the steps 0 and `L-1`, entry `1 + j` is step `j` for
`j = 1 .. L-2`, then the anchors (rules R77, R78). -/
def expand1 (a b : Byte) (L : Levels) : Palette Byte where
  first := paletteStep a b L 0
  others := paletteStep a b L (levelCount L - 1) ::
    ((List.range (levelCount L - 2)).map fun j => paletteStep a b L (j + 1)) ++ anchors L

/-- Zips three scalar palettes into a palette of 3-vectors, entry by entry. -/
def zipPalettes (P0 P1 P2 : Palette Byte) : Palette Colour where
  first := ⟨P0.first, P1.first, P2.first⟩
  others := List.zipWith (fun x yz => ⟨x, yz.1, yz.2⟩) P0.others (P1.others.zip P2.others)

/-- `EXPAND3(A, B)`: four levels, each channel on its own (rule R80). -/
def expand3 (A B : Colour) : Palette Colour :=
  zipPalettes (expand1 A.c0 B.c0 .four) (expand1 A.c1 B.c1 .four) (expand1 A.c2 B.c2 .four)

end Sys2Proof.Machine
end

