-- ==== Sys2Proof/Machine/Mapper.lean ====
section
/-! DEFINITION. The index mapper `MAP1`, `MAP3` (41_palette_index.md rules R81 to R88), and the
scan it shares with the selection of a partition (44_bc7.md rule R115): first strict minimum. -/

namespace Sys2Proof.Machine

/-- An item of a list with its position. -/
structure Found (α : Type) where
  index : Nat
  item : α
  deriving DecidableEq, Repr

/-- The scan of rule R82 over the items from position `j` on: an item replaces the incumbent only when
its distance is strictly smaller. -/
def scanFrom {α : Type} (dist : α → Nat) : List α → Nat → Found α → Found α
  | [], _, best => best
  | p :: ps, j, best =>
    scanFrom dist ps (j + 1) (if dist p < dist best.item then ⟨j, p⟩ else best)

/-- The scan of a non-empty list: it starts with item 0 (rules R82, R115). -/
def firstLeast {α : Type} (dist : α → Nat) (first : α) (others : List α) : Found α :=
  scanFrom dist others 1 ⟨0, first⟩

/-- The palette entry chosen for a sample whose distance to each entry is `dist` (rules R82, R86). -/
def nearest {α : Type} (dist : α → Nat) (P : Palette α) : Found α :=
  firstLeast dist P.first P.others

/-- The Index Stream and the summed error of a list of samples (rules R83, R84, R87, R88). -/
def mapWith {σ α : Type} (dist : σ → α → Nat) (V : List σ) (P : Palette α) : List Nat × Nat :=
  (V.map fun v => (nearest (dist v) P).index,
    (V.map fun v => dist v (nearest (dist v) P).item).sum)

/-- `d(s, p) = |s - p|` (rule R81). -/
def absDist (v p : Byte) : Nat := ((v.toNat : Int) - (p.toNat : Int)).natAbs

/-- `d2(s, p)`, the squared Euclidean distance (rule R85). -/
def sqDist (v p : Colour) : Nat :=
  absDist v.c0 p.c0 ^ 2 + absDist v.c1 p.c1 ^ 2 + absDist v.c2 p.c2 ^ 2

/-- `MAP1(V, P)` (rules R81 to R84). -/
def map1 (V : List Byte) (P : Palette Byte) : List Nat × Nat := mapWith absDist V P

/-- `MAP3(V, P)` (rules R85 to R88). -/
def map3 (V : List Colour) (P : Palette Colour) : List Nat × Nat := mapWith sqDist V P

end Sys2Proof.Machine
end

