-- ==== Sys2Proof/Machine/State.lean ====
section
/-! DEFINITION. The state of BCENC (10_state.md), the reasons a read or a meaning can stop, and the
state after reset (rule R25). -/

namespace Sys2Proof.Machine

/-- What the host agent does next, one event per step (rules R6, R160). -/
inductive HostEvent where
  /-- The host presents a command word and the core accepts it (rules R21, R37). -/
  | command (w : Word)
  /-- The host asserts and releases `rst` (rule R160). -/
  | reset
  deriving DecidableEq, Repr

/-- The architectural state of BCENC: exactly the fields of rule R10. -/
structure Registers where
  /-- `S[c][k]`, the sample buffer (rules R11, R13). -/
  samples : Triple (Block Byte)
  /-- `CNT[c]`, the pushes to channel `c` since the last clear, saturating at 31 (rule R12). -/
  cnt : Triple (BitVec 5)
  /-- `OUT`, the block of the last successful encode command (rule R16). -/
  out : BitVec 128
  /-- `OLEN`, its length in bytes (rule R17). -/
  olen : BitVec 5
  /-- `OVALID` (rule R18). -/
  ovalid : Bool
  /-- `ERR0` (rule R19). -/
  err0 : BitVec 22
  /-- `ERR1` (rule R19). -/
  err1 : BitVec 22
  /-- `PART` (rule R20). -/
  part : BitVec 6
  /-- `FLAGS`: `SHAPE` is bit 0, `CMD` is bit 1 (rule R15). -/
  flags : BitVec 2
  deriving DecidableEq, Repr

/-- The state of the machine: the core, which is the registers and nothing else, and beside it the host
agent of rule R6, whose next events are the input of the step. `registerStep` is the step of the core
alone, with the command word as its argument (rule R10). -/
structure State extends Registers where
  /-- The model's own: the events of the host still to come, the next one first. The spec makes the
  command word an input of the step (rule R10); the step has no other input. Log entry 1. -/
  host : List HostEvent
  deriving DecidableEq, Repr

/-- Why a read can fail. No step of the machine ends in a fault: rule R167 gives every accepted word a
defined effect in every state. -/
inductive Fault where
  /-- Raised by `memRead`, a read by the host, when it asks for a byte outside the output space,
  addresses 0 to 15 (rule R31). Safe: the spec gives no such byte, and none is made up. -/
  | outsideOutputSpace (addr n : Nat)
  deriving DecidableEq, Repr

/-- Why something can be turned down. No command of BCENC is refused. -/
inductive Refusal where
  /-- Raised by `exec` for a command that has no meaning yet; no arm does. Safe: the machine stops. -/
  | notModelled (mnemonic : String)
  /-- Raised by `configure` for a partition table that is not well formed (rule R5, D28): such an
  instance is not built. Safe: it is the refusal the spec asks for. -/
  | illFormedPartitionTable
  deriving DecidableEq, Repr

/-- The state after reset (rules R25, R161). The spec gives the 48 sample slots no value; 0 is a DESIGN
CHOICE, log entry 3, unsafe. The host's list is empty: log entry 1. -/
def State.reset : State where
  samples := ⟨Vector.replicate 16 0#8, Vector.replicate 16 0#8, Vector.replicate 16 0#8⟩
  cnt := ⟨0#5, 0#5, 0#5⟩
  out := 0#128
  olen := 0#5
  ovalid := false
  err0 := 0#22
  err1 := 0#22
  part := 0#6
  flags := 0#2
  host := []

end Sys2Proof.Machine
end

