-- ==== Sys2Proof/Machine/Flags.lean ====
section
/-! DEFINITION. The register `FLAGS` (10_state.md rule R15): its two sticky bits, how they are set
and how `CLRF` clears them. BCENC has no arithmetic condition codes. -/

namespace Sys2Proof.Machine

/-- The two exceptions (60_exceptions.md rule R140). -/
inductive Exception where
  | shape
  | illegal
  deriving DecidableEq, Repr

/-- The code of an exception: its bit number in `FLAGS` (rule R140). -/
def exceptionCode : Exception → Nat
  | .shape => 0
  | .illegal => 1

/-- `FLAGS.SHAPE` (rule R15). -/
def flagShape (s : State) : Bool := s.flags.getLsbD 0

/-- `FLAGS.CMD` (rule R15). -/
def flagCmd (s : State) : Bool := s.flags.getLsbD 1

/-- `FLAGS` with the bit of `e` set and the other bit as it was (rules R15, R146). -/
def flagsWith (e : Exception) (f : BitVec 2) : BitVec 2 := f ||| (1#2 <<< exceptionCode e)

/-- Sets the sticky flag of an exception. -/
def setFlag (e : Exception) (s : State) : State := { s with flags := flagsWith e s.flags }

/-- `FLAGS.SHAPE <- 0 ; FLAGS.CMD <- 0` (rule R94). -/
def clearFlags (s : State) : State := { s with flags := 0#2 }

end Sys2Proof.Machine
end

