-- ==== Sys2Proof/Machine/Operands.lean ====
section
/-! DEFINITION. The operands of the commands: the channel a `PUSH` names (30_encoding.md rule R46), and
what an encode command reads, the counters and the sample blocks (10_state.md rule R11). -/

namespace Sys2Proof.Machine

/-- The channel that the field `CH` names; 3 names none (rules R46, R49). -/
def channelOf (ch : BitVec 2) : Option Channel :=
  match ch.toNat with
  | 0 => some .c0
  | 1 => some .c1
  | 2 => some .c2
  | _ => none

/-- `CNT[c]` as a number (rule R12). -/
def count (s : State) (c : Channel) : Nat := (s.cnt.get c).toNat

/-- `S[c][k]` (rule R11). -/
def slot (s : State) (c : Channel) (k : Fin 16) : Byte := (s.samples.get c)[k]

/-- Channel `c` holds exactly one Sample Block: `CNT[c] = 16` (rules R12, R141). -/
def holdsBlock (s : State) (c : Channel) : Bool := count s c == 16

/-- `[S[c][0], ..., S[c][15]]` (rules R11, R103). -/
def sampleBlock (s : State) (c : Channel) : Block Byte := s.samples.get c

/-- `[(S[0][i], S[1][i], S[2][i]) for i = 0..15]` (rules R11, R120). -/
def pixelBlock (s : State) : Block Colour :=
  Vector.ofFn fun i => ⟨slot s .c0 i, slot s .c1 i, slot s .c2 i⟩

end Sys2Proof.Machine
end

