-- ==== Sys2Proof/Machine/Ops.lean ====
section
/-! DEFINITION. The shared operations over the state: pushing a sample, clearing the counters, writing
a result, taking an exception, the host's events, and what the host reads. -/

namespace Sys2Proof.Machine

/-! ### The sample buffer (rules R12, R92) -/

/-- `min(CNT + 1, 31)`: the counter saturates (rule R12). -/
def countUp (n : BitVec 5) : BitVec 5 := BitVec.ofNat 5 (min (n.toNat + 1) 31)

/-- `if k < 16 then S[c][k] <- v`, on the slots of one channel (rule R92). -/
def storeSlot (b : Block Byte) (k : Nat) (v : Byte) : Block Byte :=
  if h : k < 16 then b.set k v h else b

/-- Appends one sample to channel `c` (rule R92): it is stored only while the counter is below 16, and
counted in any case. -/
def pushSample (c : Channel) (v : Byte) (s : State) : State :=
  { s with
    samples := s.samples.set c (storeSlot (s.samples.get c) (count s c) v)
    cnt := s.cnt.set c (countUp (s.cnt.get c)) }

/-- `CNT[0] <- 0 ; CNT[1] <- 0 ; CNT[2] <- 0` (rule R91). -/
def clearCounters (s : State) : State := { s with cnt := ⟨0#5, 0#5, 0#5⟩ }

/-! ### Taking an exception (60_exceptions.md)

Raising saves nothing and redirects nothing (rule R145): there is no program counter, no handler and
no mode. There is no return from an exception; the core is ready for the next command at once, and
`CLRF` (`clearFlags`) clears the flags (rule R146). -/

/-- The state after an exception is taken: for `SHAPE` the effect of rule R141, for `ILLEGAL` that of
rule R142. -/
def takeException (e : Exception) (s : State) : State :=
  match e with
  | .shape => { setFlag .shape (clearCounters s) with ovalid := false }
  | .illegal => setFlag .illegal s

/-! ### Results (rules R16 to R20) -/

/-- What a successful encode command writes, all together (rule R31). -/
structure Result where
  out : BitVec 128
  olen : BitVec 5
  err0 : BitVec 22
  err1 : BitVec 22
  part : BitVec 6
  deriving DecidableEq, Repr

/-- Writes a result and sets `OVALID` (rules R18, R103). -/
def writeResult (r : Result) (s : State) : State :=
  { s with
    out := r.out, olen := r.olen, err0 := r.err0, err1 := r.err1, part := r.part, ovalid := true }

/-- An encode command whose shape check has the answer `good` and whose result, if it is good, is `r`:
the counters are cleared in either case (rules R103, R141). -/
def encodeCommand (good : Bool) (r : Result) (s : State) : State :=
  if good then writeResult r (clearCounters s) else takeException .shape s

/-! ### The host's events (rules R37, R160) -/

/-- The next event of the host, and the state with that event taken off its list. -/
def takeEvent (s : State) : Option (HostEvent × State) :=
  match s.host with
  | [] => none
  | e :: rest => some (e, { s with host := rest })

/-- Reset replaces the whole state by the reset state (rule R160). What the host does afterwards is its
own: log entry 7. -/
def resetEvent (s : State) : State := { State.reset with host := s.host }

/-- The state in which the host presents `w` next. -/
def presentCommand (w : Word) (s : State) : State := { s with host := .command w :: s.host }

/-! ### What the host reads (rules R21, R30, R31) -/

/-- Byte `k` of `OUT`, bits `[8k+7:8k]` (rule R30). The spec has bytes 0 to 15; what this answers past them
is a DESIGN CHOICE, zero bits, log entry 20, unsafe. -/
def outByte (s : State) (k : Nat) : Byte := s.out.extractLsb' (8 * k) 8

/-- `MemRead(addr, n)`: the bytes `addr .. addr+n-1` of the output space (rules R8, R31). -/
def memRead (s : State) (addr n : Nat) : Except Fault (List Byte) :=
  if addr + n ≤ 16 then .ok ((List.range n).map fun k => outByte s (addr + k))
  else .error (.outsideOutputSpace addr n)

/-- The bytes of the block, 0 to `OLEN-1` (rule R31), in stream order. `OLEN` is never above 16 (rule R17);
in a state no run reaches, where it is, the bytes past 15 are those of log entry 20. -/
def blockBytes (s : State) : List Byte := (List.range s.olen.toNat).map (outByte s)

/-- 32-bit word `w` of `OUT`, `OUT[32w+31:32w]` (rule R30). The spec has four, 0 to 3; zero bits past them
are a DESIGN CHOICE, log entry 20, unsafe. -/
def outWord32 (s : State) (w : Nat) : BitVec 32 := s.out.extractLsb' (32 * w) 32

/-- 64-bit word `w` of `OUT`, `OUT[64w+63:64w]` (rule R30). The spec has two, 0 and 1; zero bits past them
are a DESIGN CHOICE, log entry 20, unsafe. -/
def outWord64 (s : State) (w : Nat) : BitVec 64 := s.out.extractLsb' (64 * w) 64

/-- The output ports (rule R21). -/
structure Ports where
  out : BitVec 128
  olen : BitVec 5
  ovalid : Bool
  err0 : BitVec 22
  err1 : BitVec 22
  part : BitVec 6
  flags : BitVec 2
  cnt : BitVec 15
  cmdReady : Bool
  deriving DecidableEq, Repr

/-- The port values after the last completed command (rules R21, R38). `cnt[5c+4:5c] = CNT[c]`. Between
commands the core is ready for the next one (rules R25, R37): log entry 9. -/
def ports (s : State) : Ports where
  out := s.out
  olen := s.olen
  ovalid := s.ovalid
  err0 := s.err0
  err1 := s.err1
  part := s.part
  flags := s.flags
  cnt := s.cnt.c2 ++ s.cnt.c1 ++ s.cnt.c0
  cmdReady := true

/-! ### Configuration (rule R5) -/

/-- Builds the partition table of an instance from its masks, `PTAB[0]` first, or refuses it. -/
def configure : List PartitionMask → Except Refusal PartitionTable
  | [] => .error .illFormedPartitionTable
  | first :: rest =>
    if h : tableWellFormed first rest = true then .ok ⟨first, rest, h⟩
    else .error .illFormedPartitionTable

end Sys2Proof.Machine
end

