-- ==== Sys2Proof/Machine/Pack.lean ====
section
/-! DEFINITION. The packers: the bit layouts of the blocks (30_encoding.md Part B). A field list is read
from bit 0 upward (D21), so in the concatenations below the last operand is the lowest field. -/

namespace Sys2Proof.Machine

/-- `sum over i of idx[i] << (w * i)`, sample 0 lowest (rules R102, R117). -/
def packIndices (w : Nat) : List Nat → Nat
  | [] => 0
  | i :: is => i + packIndices w is * 2 ^ w

/-- `IDX48` (rules R53, R102). -/
def idx48 (idx : List Nat) : BitVec 48 := BitVec.ofNat 48 (packIndices 3 idx)

/-- The BC4 block (rule R53): `EP_A` at `[7:0]`, `EP_B` at `[15:8]`, `IDX48` at `[63:16]`. -/
def packBc4 (a b : Byte) (idx : List Nat) : BitVec 64 := idx48 idx ++ b ++ a

/-- The BC5 block (rule R54): channel 0's block at `[63:0]`, channel 1's at `[127:64]`. -/
def packBc5 (blk0 blk1 : BitVec 64) : BitVec 128 := blk1 ++ blk0

/-- A BC4 block in `OUT` (rule R57): `OUT[127:64] = 0`. -/
def placeBc4 (blk : BitVec 64) : BitVec 128 := 0#64 ++ blk

/-- `q7(x) = x >> 1` (rule R116). -/
def q7 (x : Byte) : BitVec 7 := x.extractLsb' 1 7

/-- The 4x7-bit pairs of one colour, `E0` lowest (rules R55, R116). -/
def colourField (c : Channel) (e0 e1 e2 e3 : Colour) : BitVec 28 :=
  q7 (e3.get c) ++ q7 (e2.get c) ++ q7 (e1.get c) ++ q7 (e0.get c)

/-- `IDX32` (rules R56, R117). -/
def idx32 (idx : List Nat) : BitVec 32 := BitVec.ofNat 32 (packIndices 2 idx)

/-- `IDX30 = IDX32[29:0]`: the index of pixel 15 is dropped (rules R56, R118). -/
def idx30 (idx : List Nat) : BitVec 30 := (idx32 idx).extractLsb' 0 30

/-- The BC7 mode-3 block (rules R55, R119): `MODE` = 8, `PARTID`, red, green, blue, `PBITS` = 0,
`IDX30`. -/
def packBc7 (part : BitVec 6) (e0 e1 e2 e3 : Colour) (idx : List Nat) : BitVec 128 :=
  idx30 idx ++ 0#4 ++ colourField .c2 e0 e1 e2 e3 ++ colourField .c1 e0 e1 e2 e3 ++
    colourField .c0 e0 e1 e2 e3 ++ part ++ 8#4

end Sys2Proof.Machine
end

