-- ==== Sys2Proof/Machine/Bc4.lean ====
section
/-! DEFINITION. The BC4 and BC5 encoders (43_bc4_bc5.md). -/

namespace Sys2Proof.Machine

/-- The level choice: `a > b` selects 8 levels, `a <= b` selects 6 (rule R101). -/
def bc4Levels (a b : Byte) : Levels := if b.toNat < a.toNat then .eight else .six

/-- The mapping and packing of a block whose endpoints are `a` and `b` (rules R100 to R102). -/
def bc4FromEndpoints (a b : Byte) (V : Block Byte) : BitVec 64 × Nat :=
  let m := map1 V.toList (expand1 a b (bc4Levels a b))
  (packBc4 a b m.1, m.2)

/-- `BC4CORE(V)` (rule R100). -/
def bc4core (V : Block Byte) : BitVec 64 × Nat :=
  let e := est1 V.toList
  bc4FromEndpoints e.1 e.2 V

/-- What `ENC4` writes (rule R103). -/
def bc4Result (V : Block Byte) : Result where
  out := placeBc4 (bc4core V).1
  olen := 8#5
  err0 := BitVec.ofNat 22 (bc4core V).2
  err1 := 0#22
  part := 0#6

/-- What `ENC5` writes: the two channels are encoded independently (rule R104). -/
def bc5Result (V0 V1 : Block Byte) : Result where
  out := packBc5 (bc4core V0).1 (bc4core V1).1
  olen := 16#5
  err0 := BitVec.ofNat 22 (bc4core V0).2
  err1 := BitVec.ofNat 22 (bc4core V1).2
  part := 0#6

/-- `ENC4` (rule R103): channels 1 and 2 are neither checked nor read. -/
def execEnc4 (s : State) : Host.Outcome State Fault Refusal :=
  .next (encodeCommand (holdsBlock s .c0) (bc4Result (sampleBlock s .c0)) s)

/-- `ENC5` (rule R104): channel 2 is neither checked nor read. -/
def execEnc5 (s : State) : Host.Outcome State Fault Refusal :=
  .next (encodeCommand (holdsBlock s .c0 && holdsBlock s .c1)
    (bc5Result (sampleBlock s .c0) (sampleBlock s .c1)) s)

end Sys2Proof.Machine
end

