-- ==== Sys2Proof/Machine/Bc7.lean ====
section
/-! DEFINITION. The BC7 mode-3 encoder (44_bc7.md). Subset 0 is `false`, subset 1 is `true`. -/

namespace Sys2Proof.Machine

/-- `PTAB[p][i]` of the partition `m`: the subset of pixel `i` (rule R111). -/
def subsetOf (m : PartitionMask) (i : Fin 16) : Bool := m.getLsbD i.val

/-- `M(p, s)`, the pixel numbers of a subset in increasing order (rule R111). -/
def members (m : PartitionMask) (s : Bool) : List (Fin 16) :=
  (List.finRange 16).filter fun i => subsetOf m i == s

/-- `[V[i] for i in M(p, s)]`. -/
def memberPixels (m : PartitionMask) (s : Bool) (V : Block Colour) : List Colour :=
  (members m s).map fun i => V[i]

/-- The endpoints `(A(p,s), B(p,s))` of a candidate's subset, 8 bits a channel (rule R112). -/
def subsetEndpoints (m : PartitionMask) (s : Bool) (V : Block Colour) : Colour × Colour :=
  est3 (memberPixels m s V)

/-- `Pal(p,s)` (rule R113). -/
def subsetPalette (m : PartitionMask) (s : Bool) (V : Block Colour) : Palette Colour :=
  expand3 (subsetEndpoints m s V).1 (subsetEndpoints m s V).2

/-- `E(p,s)` (rule R113). -/
def subsetError (m : PartitionMask) (s : Bool) (V : Block Colour) : Nat :=
  (map3 (memberPixels m s V) (subsetPalette m s V)).2

/-- `E(p) = E(p,0) + E(p,1)` (rule R114). -/
def candidateError (V : Block Colour) (m : PartitionMask) : Nat :=
  subsetError m false V + subsetError m true V

/-- `idx(p)[i]`: the index of pixel `i` in the palette of its own subset, the 2-to-1 choice of rule R113.
That it is the element of the subset's Index Stream at the position of `i`: log entry 12. -/
def candidateIndices (V : Block Colour) (m : PartitionMask) : List Nat :=
  let pal0 := subsetPalette m false V
  let pal1 := subsetPalette m true V
  (List.finRange 16).map fun i =>
    (nearest (sqDist V[i]) (if subsetOf m i then pal1 else pal0)).index

/-- The selection of rule R115: in table order, only a strictly lower error replaces the incumbent. -/
def selectPartition (t : PartitionTable) (V : Block Colour) : Found PartitionMask :=
  firstLeast (candidateError V) t.first t.rest

/-- The block of partition number `p` with mask `m` (rules R116 to R119). -/
def bc7Block (p : Nat) (m : PartitionMask) (V : Block Colour) : BitVec 128 :=
  let ends0 := subsetEndpoints m false V
  let ends1 := subsetEndpoints m true V
  packBc7 (BitVec.ofNat 6 p) ends0.1 ends0.2 ends1.1 ends1.2 (candidateIndices V m)

/-- What `BC7CORE` returns (rule R110). -/
structure Bc7Answer where
  blk : BitVec 128
  part : Nat
  err : Nat
  deriving DecidableEq, Repr

/-- `BC7CORE(V)` under the table `t` (rules R110 to R119). -/
def bc7core (t : PartitionTable) (V : Block Colour) : Bc7Answer :=
  let best := selectPartition t V
  { blk := bc7Block best.index best.item V
    part := best.index
    err := candidateError V best.item }

/-- What `ENC7` writes under the table `t` (rule R120). -/
def bc7Result (t : PartitionTable) (V : Block Colour) : Result :=
  let r := bc7core t V
  { out := r.blk, olen := 16#5, err0 := BitVec.ofNat 22 r.err, err1 := 0#22
    part := BitVec.ofNat 6 r.part }

/-- `ENC7` on an instance whose partition table is `t` (rule R120). -/
def enc7With (t : PartitionTable) (s : State) : State :=
  encodeCommand (holdsBlock s .c0 && holdsBlock s .c1 && holdsBlock s .c2)
    (bc7Result t (pixelBlock s)) s

/-- `ENC7` (rule R120) on this instance. -/
def execEnc7 (s : State) : Host.Outcome State Fault Refusal :=
  .next (enc7With Config.partitionTable s)

end Sys2Proof.Machine
end

