-- ==== Sys2Proof/Machine/Buffer.lean ====
section
/-! DEFINITION. The buffer and housekeeping commands (42_buffer_commands.md). -/

namespace Sys2Proof.Machine

/-- `NOP` (rule R90). -/
def execNop (s : State) : Host.Outcome State Fault Refusal := .next s

/-- `CLR` (rule R91). -/
def execClr (s : State) : Host.Outcome State Fault Refusal := .next (clearCounters s)

/-- `PUSH ch, v` (rule R92). A word with `CH = 3` is illegal (rule R49), so the term with `ch = 3`, which
the decoder never gives, raises `ILLEGAL`: log entry 6. -/
def execPush (ch : BitVec 2) (v : Byte) (s : State) : Host.Outcome State Fault Refusal :=
  match channelOf ch with
  | some c => .next (pushSample c v s)
  | none => .next (takeException .illegal s)

/-- `PUSHV c0, c1, c2` (rule R93): the three channels in one atomic command. -/
def execPushv (c0 c1 c2 : Byte) (s : State) : Host.Outcome State Fault Refusal :=
  .next (pushSample .c2 c2 (pushSample .c1 c1 (pushSample .c0 c0 s)))

/-- `CLRF` (rule R94). -/
def execClrf (s : State) : Host.Outcome State Fault Refusal := .next (clearFlags s)

end Sys2Proof.Machine
end

