-- ==== Sys2Proof/Machine/Dispatch.lean ====
section
/-! DEFINITION. The meaning of every command, one arm per constructor. -/

namespace Sys2Proof.Machine

def exec (i : Instr) (s : State) : Host.Outcome State Fault Refusal :=
  match i with
  | .nop => Sys2Proof.Machine.execNop s
  | .clr => Sys2Proof.Machine.execClr s
  | .push ch v => Sys2Proof.Machine.execPush ch v s
  | .pushv c0 c1 c2 => Sys2Proof.Machine.execPushv c0 c1 c2 s
  | .enc4 => Sys2Proof.Machine.execEnc4 s
  | .enc5 => Sys2Proof.Machine.execEnc5 s
  | .enc7 => Sys2Proof.Machine.execEnc7 s
  | .clrf => Sys2Proof.Machine.execClrf s

end Sys2Proof.Machine
end

