-- ==== Sys2Proof/Machine/Accept.lean ====
section
/-! DEFINITION. Accepting a command word: the order of checks (42_buffer_commands.md rule R95). -/

namespace Sys2Proof.Machine

/-- The effect of an accepted word: it is decoded first, and only a legal word reaches the rule of its
command; an illegal one raises `ILLEGAL` (rules R95, R142, R144). -/
def acceptCommand (w : Word) (s : State) : Host.Outcome State Fault Refusal :=
  match decode w with
  | .ok i => exec i s
  | .error _ => .next (takeException .illegal s)

/-- The step of the core alone: the registers after an accepted word, from the registers before it and the
word, which is an input of the step (rules R10, R37). The meanings neither read nor write the host's
events, so it does not matter which are put beside the registers: log entry 1. -/
def registerStep (w : Word) (r : Registers) : Host.Outcome Registers Fault Refusal :=
  match acceptCommand w { toRegisters := r, host := [] } with
  | .next t => .next t.toRegisters
  | .fault f => .fault f
  | .refused f => .refused f

/-- The effect of one event of the host (rules R6, R160). -/
def acceptEvent (e : HostEvent) (s : State) : Host.Outcome State Fault Refusal :=
  match e with
  | .command w => acceptCommand w s
  | .reset => .next (resetEvent s)

end Sys2Proof.Machine
end

