-- ==== Sys2Proof/Machine/Step.lean ====
section
/-! DEFINITION. One step of the machine: one event of the host (00_scope.md rule R6). -/

namespace Sys2Proof.Machine

/-- One step: the next event of the host, a command executed to completion (rules R6, R37) or a reset
(rule R160). Where the host presents nothing, no command is accepted and nothing changes (rule R21, log
entry 2). -/
def step (s : State) : Host.Outcome State Fault Refusal :=
  match takeEvent s with
  | none => .next s
  | some (e, s') => acceptEvent e s'

/-- The state in which the next step accepts the table row's word. The word is put in front of what the
host does next; the step takes it off again. -/
def State.withFetchWord (s : State) (nbits w : Nat) : State :=
  presentCommand (tableWord nbits w) s

end Sys2Proof.Machine
end

