-- ==== Sys2Proof/Safety.lean ====
section
/-! DEFINITION. What a safe run is, and the notions that the statements about the machine share: which
channels a command needs, what the result registers may hold, and when two states cannot be told
apart. -/

namespace Sys2Proof.Safety

open Sys2Proof.Machine

/-! ### Runs -/

/-- A state from which no run stops (rule R167: every accepted word has a defined effect in every
state). -/
def NeverStops (s : State) : Prop := ∀ k, ∃ t, Host.Core.run Sys2Proof.core k s = .next t

/-- The commands of a list executed one after the other (rule R37). -/
def runCommands : List Instr → State → Host.Outcome State Fault Refusal
  | [], s => .next s
  | i :: is, s =>
    match exec i s with
    | .next t => runCommands is t
    | .fault r => .fault r
    | .refused r => .refused r

/-! ### Commands and channels -/

/-- The number of a channel, as the field `CH` spells it (rule R46). -/
def channelNumber : Channel → BitVec 2
  | .c0 => 0#2
  | .c1 => 1#2
  | .c2 => 2#2

/-- The channels a command needs to hold a whole block (rule R141); none for the commands that do not
encode. -/
def neededChannels : Instr → List Channel
  | .nop => []
  | .clr => []
  | .push _ _ => []
  | .pushv _ _ _ => []
  | .enc4 => [.c0]
  | .enc5 => [.c0, .c1]
  | .enc7 => [.c0, .c1, .c2]
  | .clrf => []

/-- The three encode commands. -/
def isEncode : Instr → Bool
  | .nop => false
  | .clr => false
  | .push _ _ => false
  | .pushv _ _ _ => false
  | .enc4 => true
  | .enc5 => true
  | .enc7 => true
  | .clrf => false

/-- Every channel the command needs holds exactly 16 samples (rule R141). -/
def shapeGood (i : Instr) (s : State) : Prop := ∀ c ∈ neededChannels i, count s c = 16

/-- The word matches no row of the opcode map, in the words of rule R49. -/
def IllegalByRule (w : Word) : Prop :=
  let op := (w.extractLsb' 28 4).toNat
  (op = 0x6 ∨ 0x9 ≤ op) ∨
  (op ∈ [0x0, 0x1, 0x4, 0x5, 0x7, 0x8] ∧ w.extractLsb' 0 28 ≠ 0#28) ∨
  (op = 0x2 ∧
    (w.extractLsb' 26 2 ≠ 0#2 ∨ w.extractLsb' 8 16 ≠ 0#16 ∨ w.extractLsb' 24 2 = 3#2)) ∨
  (op = 0x3 ∧ w.extractLsb' 24 4 ≠ 0#4)

/-! ### What the result registers may hold -/

/-- The result registers as one value (rules R16 to R20). -/
def resultOf (s : State) : Result := ⟨s.out, s.olen, s.err0, s.err1, s.part⟩

/-- `EP_A <= EP_B` in a BC4 block: the 6-level palette (rules R53, R101). -/
def endpointsOrdered (blk : BitVec 64) : Prop :=
  (blk.extractLsb' 0 8).toNat ≤ (blk.extractLsb' 8 8).toNat

/-- No block has been written since reset (rules R17, R25). -/
def NoBlockYet (s : State) : Prop := resultOf s = resultOf State.reset ∧ s.ovalid = false

/-- The result registers hold the answer of an `ENC4` (rules R16, R17, R19, R20). -/
def HoldsBc4 (s : State) : Prop :=
  s.olen = 8#5 ∧ s.out.extractLsb' 64 64 = 0#64 ∧ endpointsOrdered (s.out.extractLsb' 0 64) ∧
  s.err0.toNat ≤ 4080 ∧ s.err1 = 0#22 ∧ s.part = 0#6

/-- The result registers hold the answer of an `ENC5`. -/
def HoldsBc5 (s : State) : Prop :=
  s.olen = 16#5 ∧ endpointsOrdered (s.out.extractLsb' 0 64) ∧
  endpointsOrdered (s.out.extractLsb' 64 64) ∧
  s.err0.toNat ≤ 4080 ∧ s.err1.toNat ≤ 4080 ∧ s.part = 0#6

/-- The result registers hold the answer of an `ENC7`: `MODE` is 8, `PARTID` is `PART`, an entry of the
table, and `PBITS` is 0 (rules R20, R55). -/
def HoldsBc7 (s : State) : Prop :=
  s.olen = 16#5 ∧ s.out.extractLsb' 0 4 = 8#4 ∧ s.out.extractLsb' 4 6 = s.part ∧
  s.part.toNat < Config.partitionTable.npart ∧ s.out.extractLsb' 94 4 = 0#4 ∧
  s.err0.toNat ≤ 3121200 ∧ s.err1 = 0#22

/-- The result registers together are those of one block, or of none. -/
def ResultsCoherent (s : State) : Prop := NoBlockYet s ∨ HoldsBc4 s ∨ HoldsBc5 s ∨ HoldsBc7 s

/-! ### States that cannot be told apart -/

/-- `s` and `t` differ at most in slots that no push has written since the last clear, those at or
above the channel's counter (rule R13). -/
def SameButUnpushed (s t : State) : Prop :=
  t = { s with samples := t.samples } ∧
  ∀ c, ∀ k : Fin 16, k.val < count s c → slot s c k = slot t c k

/-! ### The exact line of the estimator -/

/-- The exact least-squares line through the points `(k, u[k])`, evaluated at the first and at the last
index, in the rationals: the formulas of rule R68. -/
def lineEnds (u : List Nat) : ℚ × ℚ :=
  let n : ℚ := u.length
  let Sx : ℚ := ∑ k ∈ Finset.range u.length, (k : ℚ)
  let Sxx : ℚ := ∑ k ∈ Finset.range u.length, (k : ℚ) ^ 2
  let Sy : ℚ := ∑ k ∈ Finset.range u.length, (u.getD k 0 : ℚ)
  let Sxy : ℚ := ∑ k ∈ Finset.range u.length, (k : ℚ) * (u.getD k 0 : ℚ)
  let D : ℚ := n * Sxx - Sx ^ 2
  let m : ℚ := (n * Sxy - Sx * Sy) / D
  let c : ℚ := (Sy * Sxx - Sx * Sxy) / D
  (c, c + m * (n - 1))

end Sys2Proof.Safety
end

