-- ==== Sys2Proof/Certificates/Slice0/Obligations.lean ====
section
/-! DEFINITION. The statements about BCENC that are to be proved. Each docstring names the rule or the
section of spec/ it formalises. A statement whose rule the spec marks [derived: ...] is an inference
of the spec and says so; one that rests on a choice of the model names its log entry. -/

open Sys2Proof Sys2Proof.Machine Sys2Proof.Safety

/-! ### Encoding (30_encoding.md Part A) -/

/-- Decoding the word of a well-formed command gives the command back, for every operand the encoding
admits (30_encoding.md Part A). -/
def Obligations.DecodeEncodeRoundTrip : Prop :=
  ∀ i : Instr, i.wellFormed = true → decode (encode i) = .ok i

/-- A word that decodes is the word of the well-formed command it decodes to: no legal word stands for
two commands and no bit of it is dropped (30_encoding.md Part A). -/
def Obligations.LegalWordIsTheEncodingOfItsCommand : Prop :=
  ∀ (w : Word) (i : Instr), decode w = .ok i → i.wellFormed = true ∧ encode i = w

/-- The opcode map by match and mask, with the operand fields (rules R46, R47). -/
def Obligations.OpcodeMapByMatchAndMask : Prop :=
  ∀ w : Word,
    (decode w = .ok .nop ↔ w &&& 0xFFFFFFFF#32 = 0x00000000#32) ∧
    (decode w = .ok .clr ↔ w &&& 0xFFFFFFFF#32 = 0x10000000#32) ∧
    (∀ ch v, decode w = .ok (.push ch v) ↔
      w &&& 0xFCFFFF00#32 = 0x20000000#32 ∧ w.extractLsb' 24 2 ≠ 3#2 ∧
      ch = w.extractLsb' 24 2 ∧ v = w.extractLsb' 0 8) ∧
    (∀ c0 c1 c2, decode w = .ok (.pushv c0 c1 c2) ↔
      w &&& 0xFF000000#32 = 0x30000000#32 ∧
      c0 = w.extractLsb' 0 8 ∧ c1 = w.extractLsb' 8 8 ∧ c2 = w.extractLsb' 16 8) ∧
    (decode w = .ok .enc4 ↔ w &&& 0xFFFFFFFF#32 = 0x40000000#32) ∧
    (decode w = .ok .enc5 ↔ w &&& 0xFFFFFFFF#32 = 0x50000000#32) ∧
    (decode w = .ok .enc7 ↔ w &&& 0xFFFFFFFF#32 = 0x70000000#32) ∧
    (decode w = .ok .clrf ↔ w &&& 0xFFFFFFFF#32 = 0x80000000#32) ∧
    (w.extractLsb' 28 4 = 0x6#4 ∨ 0x9 ≤ (w.extractLsb' 28 4).toNat → ∃ r, decode w = .error r)

/-- Which words are illegal, and all that an accepted one does: `FLAGS.CMD <- 1` (rules R49, R142). -/
def Obligations.IllegalWordSetsOnlyFlagCmd : Prop :=
  (∀ w : Word, (∃ r, decode w = .error r) ↔ IllegalByRule w) ∧
  ∀ (s : State) (w : Word) (rest : List HostEvent),
    s.host = .command w :: rest → IllegalByRule w →
    step s = .next { s with host := rest, flags := s.flags ||| 2#2 }

/-- Words written out from the format table decode to the commands they stand for (95_test_vectors.md
section 2.0 and the examples of the commands). -/
def Obligations.WrittenOutWordsDecode : Prop :=
  decode 0x00000000#32 = .ok .nop ∧ decode 0x10000000#32 = .ok .clr ∧
  decode 0x2100007F#32 = .ok (.push 1#2 0x7F#8) ∧
  decode 0x301E0AC8#32 = .ok (.pushv 200#8 10#8 30#8) ∧
  decode 0x40000000#32 = .ok .enc4 ∧ decode 0x50000000#32 = .ok .enc5 ∧
  decode 0x70000000#32 = .ok .enc7 ∧ decode 0x80000000#32 = .ok .clrf

/-- The assembler accepts exactly the operands in range, in `PUSH`, `PUSHV`, `LOAD1` and `LOAD3` alike; it
gives each line the words of its format in order, 16 of them for `LOAD1` and `LOAD3`; and it never emits
an illegal word (30_encoding.md Part A, assembler syntax and pseudo-instructions). That a line is given
with its operands as numbers, and not as text, is the model's choice, log entry 14. -/
def Obligations.AssemblerEmitsOnlyLegalWords : Prop :=
  let pushWord := fun ch v : Nat =>
    0x20000000#32 ||| (BitVec.ofNat 32 ch <<< 24) ||| BitVec.ofNat 32 v
  let pushvWord := fun c0 c1 c2 : Nat =>
    0x30000000#32 ||| (BitVec.ofNat 32 c2 <<< 16) ||| (BitVec.ofNat 32 c1 <<< 8) |||
      BitVec.ofNat 32 c0
  (∀ (l : AsmLine) (ws : List Word), l.assemble = some ws →
    ∀ w ∈ ws, ∃ i, decode w = .ok i) ∧
  AsmLine.nop.assemble = some [0x00000000#32] ∧ AsmLine.clr.assemble = some [0x10000000#32] ∧
  AsmLine.enc4.assemble = some [0x40000000#32] ∧ AsmLine.enc5.assemble = some [0x50000000#32] ∧
  AsmLine.enc7.assemble = some [0x70000000#32] ∧ AsmLine.clrf.assemble = some [0x80000000#32] ∧
  (∀ ch v, (AsmLine.push ch v).assemble =
    if ch < 3 ∧ v < 256 then some [pushWord ch v] else none) ∧
  (∀ c0 c1 c2, (AsmLine.pushv c0 c1 c2).assemble =
    if c0 < 256 ∧ c1 < 256 ∧ c2 < 256 then some [pushvWord c0 c1 c2] else none) ∧
  (∀ ch (vs : Block Nat), (AsmLine.load1 ch vs).assemble =
    if ch < 3 ∧ ∀ v ∈ vs.toList, v < 256 then some (vs.toList.map (pushWord ch)) else none) ∧
  (∀ vs : Block (Triple Nat), (AsmLine.load3 vs).assemble =
    if ∀ p ∈ vs.toList, p.c0 < 256 ∧ p.c1 < 256 ∧ p.c2 < 256 then
      some (vs.toList.map fun p => pushvWord p.c0 p.c1 p.c2) else none)

/-! ### The step -/

/-- Order of checks: an accepted word is decoded first. A legal one runs its command, with the word taken
off the host's list; an illegal one sets `FLAGS.CMD` and does nothing else (rule R95). -/
def Obligations.StepDecodesThenRunsTheCommand : Prop :=
  ∀ (s : State) (w : Word) (rest : List HostEvent), s.host = .command w :: rest →
    (∀ i, decode w = .ok i →
      i.wellFormed = true ∧ step s = exec i { s with host := rest }) ∧
    (∀ r, decode w = .error r →
      step s = .next { s with host := rest, flags := s.flags ||| 2#2 })

/-- The core alone is a function of its registers and of the accepted word, and a step is that function: it
takes the word off the host's list, leaves the rest of the list, and no register depends on the list
(10_state.md section 1, 20_memory.md section 6). That the list stands in State is the model's choice,
log entry 1. -/
def Obligations.StepIsTheRegisterStepOfTheWord : Prop :=
  ∀ (s : State) (w : Word) (rest : List HostEvent), s.host = .command w :: rest →
    ∃ r, registerStep w s.toRegisters = .next r ∧
      step s = .next { toRegisters := r, host := rest }

/-- A reset event replaces the architectural state by the reset state (70_reset_and_hazards.md section 1).
Two parts of that state are the model's choice: the 48 sample slots are 0, for which the spec gives no
value, log entry 3, and what the host does afterwards stays on its list, log entry 7. -/
def Obligations.ResetEventRestoresTheResetState : Prop :=
  ∀ (s : State) (rest : List HostEvent), s.host = .reset :: rest →
    step s = .next { State.reset with host := rest }

/-- The reset values of the registers that the reset table gives one (10_state.md section 9). The sample
slots have none in the spec and are not mentioned. -/
def Obligations.ResetRegisterValues : Prop :=
  (∀ c, count State.reset c = 0) ∧ State.reset.out = 0#128 ∧ State.reset.olen = 0#5 ∧
  State.reset.ovalid = false ∧ State.reset.err0 = 0#22 ∧ State.reset.err1 = 0#22 ∧
  State.reset.part = 0#6 ∧ flagShape State.reset = false ∧ flagCmd State.reset = false

/-- No run of the machine ever ends in a fault or a refusal (70_reset_and_hazards.md section 3: every
accepted word has a defined effect in every state). -/
def Obligations.NoRunEverStops : Prop := ∀ s : State, NeverStops s

/-! ### The buffer and housekeeping commands (42_buffer_commands.md) -/

/-- `NOP` (rule R90): its word, its effect, and that no other word of its opcode is a `NOP`. -/
def Obligations.NopChangesNothing : Prop :=
  decode 0x00000000#32 = .ok .nop ∧
  (∀ w : Word, w.extractLsb' 28 4 = 0x0#4 → w ≠ 0#32 → ∃ r, decode w = .error r) ∧
  ∀ s : State, exec .nop s = .next s

/-- `CLR` (rule R91): its word; all counters become 0 and nothing else changes; it changes nothing after
reset, after an encode command or after another `CLR`. -/
def Obligations.ClrClearsTheCounters : Prop :=
  decode 0x10000000#32 = .ok .clr ∧
  (∀ s : State, exec .clr s = .next { s with cnt := ⟨0#5, 0#5, 0#5⟩ }) ∧
  (∀ s : State, (∀ c, count s c = 0) → exec .clr s = .next s) ∧
  exec .clr State.reset = .next State.reset ∧
  (∀ (i : Instr) (s t : State), isEncode i = true ∨ i = .clr →
    exec i s = .next t → exec .clr t = .next t)

/-- `PUSH ch, v` (rule R92): its word; the sample goes to slot `CNT[ch]` if there is such a slot, the
counter goes up by one and stops at 31, and nothing else changes; a word with `CH = 3` or a reserved
bit set pushes nothing; a channel with more than 16 pushes makes an encode command that needs it reject
the block. -/
def Obligations.PushAppendsOneSample : Prop :=
  (∀ (c : Channel) (v : Byte),
    decode (0x20000000#32 ||| ((channelNumber c).setWidth 32 <<< 24) ||| v.setWidth 32) =
      .ok (.push (channelNumber c) v)) ∧
  (∀ (c : Channel) (v : Byte) (s : State), ∃ t,
    exec (.push (channelNumber c) v) s = .next t ∧
    (∀ c' (k : Fin 16),
      slot t c' k = if c' = c ∧ k.val = count s c then v else slot s c' k) ∧
    (∀ c', count t c' = if c' = c then min (count s c + 1) 31 else count s c') ∧
    t = { s with samples := t.samples, cnt := t.cnt }) ∧
  (∀ (s : State) (w : Word) (rest : List HostEvent), s.host = .command w :: rest →
    w.extractLsb' 28 4 = 0x2#4 →
    (w.extractLsb' 24 2 = 3#2 ∨ w.extractLsb' 26 2 ≠ 0#2 ∨ w.extractLsb' 8 16 ≠ 0#16) →
    step s = .next { s with host := rest, flags := s.flags ||| 2#2 }) ∧
  (∀ (i : Instr) (c : Channel) (s : State), isEncode i = true → c ∈ neededChannels i →
    16 < count s c →
    exec i s = .next { s with
      cnt := ⟨0#5, 0#5, 0#5⟩, flags := s.flags ||| 1#2, ovalid := false })

/-- The term `PUSH 3, v`, which no word decodes to, raises `ILLEGAL` and pushes nothing: the model's
reading of the illegal word, log entry 6 (30_encoding.md Part A). -/
def Obligations.PushToChannelThreeRaisesIllegal : Prop :=
  ∀ (v : Byte) (s : State), exec (.push 3#2 v) s = .next { s with flags := s.flags ||| 2#2 }

/-- `PUSHV c0, c1, c2` (rule R93): its word; one sample is appended to each channel at the channel's own
counter; a word with a reserved bit set pushes nothing; the shape check judges each channel by its own
count. That it equals three pushes, which the rule marks derived, is stated separately. -/
def Obligations.PushvAppendsOneSamplePerChannel : Prop :=
  (∀ c0 c1 c2 : Byte,
    decode (0x30000000#32 ||| (c2.setWidth 32 <<< 16) ||| (c1.setWidth 32 <<< 8) |||
      c0.setWidth 32) = .ok (.pushv c0 c1 c2)) ∧
  (∀ (c0 c1 c2 : Byte) (s : State), ∃ t,
    exec (.pushv c0 c1 c2) s = .next t ∧
    (∀ c (k : Fin 16),
      slot t c k = if k.val = count s c then (Triple.mk c0 c1 c2).get c else slot s c k) ∧
    (∀ c, count t c = min (count s c + 1) 31) ∧
    t = { s with samples := t.samples, cnt := t.cnt }) ∧
  (∀ (s : State) (w : Word) (rest : List HostEvent), s.host = .command w :: rest →
    w.extractLsb' 28 4 = 0x3#4 → w.extractLsb' 24 4 ≠ 0#4 →
    step s = .next { s with host := rest, flags := s.flags ||| 2#2 }) ∧
  (∀ (i : Instr) (s : State), isEncode i = true → ∃ t, exec i s = .next t ∧
    (t.ovalid = true ↔ ∀ c ∈ neededChannels i, count s c = 16))

/-- `PUSHV c0, c1, c2` is `PUSH 0, c0 ; PUSH 1, c1 ; PUSH 2, c2` (42_buffer_commands.md, the sentence
"It is exactly ... done as one atomic command", which the spec marks derived), and so it is in each of
the other five orders of the three. -/
def Obligations.PushvIsThreePushes : Prop :=
  ∀ (c0 c1 c2 : Byte) (s : State),
    exec (.pushv c0 c1 c2) s = runCommands [.push 0#2 c0, .push 1#2 c1, .push 2#2 c2] s ∧
    exec (.pushv c0 c1 c2) s = runCommands [.push 0#2 c0, .push 2#2 c2, .push 1#2 c1] s ∧
    exec (.pushv c0 c1 c2) s = runCommands [.push 1#2 c1, .push 0#2 c0, .push 2#2 c2] s ∧
    exec (.pushv c0 c1 c2) s = runCommands [.push 1#2 c1, .push 2#2 c2, .push 0#2 c0] s ∧
    exec (.pushv c0 c1 c2) s = runCommands [.push 2#2 c2, .push 0#2 c0, .push 1#2 c1] s ∧
    exec (.pushv c0 c1 c2) s = runCommands [.push 2#2 c2, .push 1#2 c1, .push 0#2 c0] s

/-- `CLRF` (rule R94): its word; both flags become 0 and nothing else changes. -/
def Obligations.ClrfClearsTheFlags : Prop :=
  decode 0x80000000#32 = .ok .clrf ∧
  (∀ s : State, exec .clrf s = .next { s with flags := 0#2 }) ∧
  (∀ s : State, flagShape s = false → flagCmd s = false → exec .clrf s = .next s)

/-- Any number of pushes to a channel from an empty counter: the counter is the number of pushes,
stopped at 31, and slot `k` holds push number `k` for the first 16 (10_state.md section 2). -/
def Obligations.PushesFillSlotsInOrderAndSaturate : Prop :=
  ∀ (c : Channel) (vs : List Byte) (s : State), count s c = 0 →
    ∃ t, runCommands (vs.map fun v => .push (channelNumber c) v) s = .next t ∧
      count t c = min vs.length 31 ∧
      ∀ k : Fin 16, slot t c k = (vs[k.val]?).getD (slot s c k)

/-! ### The encode commands (43_bc4_bc5.md, 44_bc7.md) -/

/-- `ENC4` (rule R103): its word, its effect on a good and on a bad shape, that it is rejected right after
reset and right after another encode command, and that sixteen equal samples `v` give the bytes
`v v 00 00 00 00 00 00` with error 0. -/
def Obligations.Enc4EncodesOrRejects : Prop :=
  decode 0x40000000#32 = .ok .enc4 ∧
  (∀ s : State,
    (count s .c0 = 16 →
      exec .enc4 s = .next { s with
        cnt := ⟨0#5, 0#5, 0#5⟩
        out := 0#64 ++ (bc4core (sampleBlock s .c0)).1
        olen := 8#5
        err0 := BitVec.ofNat 22 (bc4core (sampleBlock s .c0)).2
        err1 := 0#22
        part := 0#6
        ovalid := true }) ∧
    (count s .c0 ≠ 16 →
      exec .enc4 s = .next { s with
        cnt := ⟨0#5, 0#5, 0#5⟩, flags := s.flags ||| 1#2, ovalid := false })) ∧
  exec .enc4 State.reset = .next { State.reset with flags := 1#2 } ∧
  (∀ (i : Instr) (s t : State), isEncode i = true → exec i s = .next t →
    exec .enc4 t = .next { t with flags := t.flags ||| 1#2, ovalid := false }) ∧
  (∀ (v : Byte) (s : State), count s .c0 = 16 → (∀ k, slot s .c0 k = v) →
    ∃ t, exec .enc4 s = .next t ∧ blockBytes t = [v, v, 0#8, 0#8, 0#8, 0#8, 0#8, 0#8] ∧
      t.err0 = 0#22)

/-- `ENC5` (rule R104): its word, its effect on a good and on a bad shape, that two counts that differ
are always rejected, and that two channels with the same samples give two equal halves. -/
def Obligations.Enc5EncodesOrRejects : Prop :=
  decode 0x50000000#32 = .ok .enc5 ∧
  (∀ s : State,
    (count s .c0 = 16 → count s .c1 = 16 →
      exec .enc5 s = .next { s with
        cnt := ⟨0#5, 0#5, 0#5⟩
        out := (bc4core (sampleBlock s .c1)).1 ++ (bc4core (sampleBlock s .c0)).1
        olen := 16#5
        err0 := BitVec.ofNat 22 (bc4core (sampleBlock s .c0)).2
        err1 := BitVec.ofNat 22 (bc4core (sampleBlock s .c1)).2
        part := 0#6
        ovalid := true }) ∧
    (count s .c0 ≠ 16 ∨ count s .c1 ≠ 16 →
      exec .enc5 s = .next { s with
        cnt := ⟨0#5, 0#5, 0#5⟩, flags := s.flags ||| 1#2, ovalid := false }) ∧
    (count s .c0 ≠ count s .c1 →
      exec .enc5 s = .next { s with
        cnt := ⟨0#5, 0#5, 0#5⟩, flags := s.flags ||| 1#2, ovalid := false }) ∧
    (count s .c0 = 16 → count s .c1 = 16 → (∀ k, slot s .c0 k = slot s .c1 k) →
      ∃ t, exec .enc5 s = .next t ∧ t.out.extractLsb' 0 64 = t.out.extractLsb' 64 64))

/-- `ENC7`: its word, its effect on a good and on a bad shape, for the partition table of the instance
whatever it is (44_bc7.md, Command). The corner cases of that section are in
`TwoColourBlockSelectsEntryZero`, with the condition its Consequences put on them, log entry 18. -/
def Obligations.Enc7EncodesOrRejects : Prop :=
  decode 0x70000000#32 = .ok .enc7 ∧
  ∀ s : State,
    ((∀ c, count s c = 16) →
      exec .enc7 s = .next { s with
        cnt := ⟨0#5, 0#5, 0#5⟩
        out := (bc7core Config.partitionTable (pixelBlock s)).blk
        olen := 16#5
        err0 := BitVec.ofNat 22 (bc7core Config.partitionTable (pixelBlock s)).err
        err1 := 0#22
        part := BitVec.ofNat 6 (bc7core Config.partitionTable (pixelBlock s)).part
        ovalid := true }) ∧
    ((∃ c, count s c ≠ 16) →
      exec .enc7 s = .next { s with
        cnt := ⟨0#5, 0#5, 0#5⟩, flags := s.flags ||| 1#2, ovalid := false })

/-- `SHAPE` (rule R141): an encode command raises it exactly when a channel it needs does not hold 16
samples, whatever the other channels hold; the effect in full; and no push raises anything. -/
def Obligations.ShapeIsRaisedByBadCountsOnly : Prop :=
  (∀ (i : Instr) (s : State), isEncode i = true →
    (¬ shapeGood i s →
      exec i s = .next { s with
        cnt := ⟨0#5, 0#5, 0#5⟩, flags := s.flags ||| 1#2, ovalid := false }) ∧
    (shapeGood i s → ∃ t, exec i s = .next t ∧ t.flags = s.flags ∧ t.ovalid = true)) ∧
  (∀ (c : Channel) (v : Byte) (s : State), ∃ t,
    exec (.push (channelNumber c) v) s = .next t ∧ t.flags = s.flags) ∧
  (∀ (c0 c1 c2 : Byte) (s : State), ∃ t,
    exec (.pushv c0 c1 c2) s = .next t ∧ t.flags = s.flags)

/-- Sixteen pushes from an empty counter, then `ENC4`: the block is that of exactly these samples, in
this order (60_exceptions.md section 1, recovery; 43_bc4_bc5.md). -/
def Obligations.LoadedSamplesAreWhatEnc4Encodes : Prop :=
  ∀ (V : Block Byte) (s : State), count s .c0 = 0 →
    ∃ t, runCommands ((V.toList.map fun v => .push 0#2 v) ++ [.enc4]) s = .next t ∧
      t.out = 0#64 ++ (bc4core V).1 ∧ t.olen = 8#5 ∧ t.ovalid = true ∧
      t.err0.toNat = (bc4core V).2 ∧ t.err1 = 0#22 ∧ t.part = 0#6 ∧
      (∀ c, count t c = 0) ∧ t.flags = s.flags

/-- Sixteen vector pushes from empty counters, then `ENC7`: the block is that of exactly these pixels, in
this order, and the 22-bit error and the 6-bit partition id are exact (44_bc7.md). -/
def Obligations.LoadedPixelsAreWhatEnc7Encodes : Prop :=
  ∀ (V : Block Colour) (s : State), (∀ c, count s c = 0) →
    ∃ t, runCommands ((V.toList.map fun p => .pushv p.c0 p.c1 p.c2) ++ [.enc7]) s = .next t ∧
      t.out = (bc7core Config.partitionTable V).blk ∧ t.olen = 16#5 ∧ t.ovalid = true ∧
      t.err0.toNat = (bc7core Config.partitionTable V).err ∧ t.err1 = 0#22 ∧
      t.part.toNat = (bc7core Config.partitionTable V).part ∧
      (∀ c, count t c = 0) ∧ t.flags = s.flags

/-- The result of a successful encode command is a function of the samples of the channels it uses:
nothing else in the state has a part in it (10_state.md section 8). -/
def Obligations.EncodeResultDependsOnSamplesOnly : Prop :=
  ∀ (i : Instr) (s t : State), isEncode i = true →
    (∀ c ∈ neededChannels i, count s c = 16 ∧ count t c = 16 ∧ sampleBlock s c = sampleBlock t c) →
    ∃ s' t', exec i s = .next s' ∧ exec i t = .next t' ∧
      resultOf s' = resultOf t' ∧ s'.ovalid = true ∧ t'.ovalid = true

/-! ### The flags, `OVALID` and the result registers over all steps -/

/-- A flag once set stays set through every step but a `CLRF` or a reset (10_state.md section 4). -/
def Obligations.FlagsAreSticky : Prop :=
  ∀ s t : State, step s = .next t →
    (∀ rest, s.host ≠ .command 0x80000000#32 :: rest) → (∀ rest, s.host ≠ .reset :: rest) →
    (flagShape s = true → flagShape t = true) ∧ (flagCmd s = true → flagCmd t = true)

/-- `FLAGS.SHAPE` rises only at an encode command of bad shape and `FLAGS.CMD` only at an illegal word
(60_exceptions.md section 1: the list of exceptions is complete). -/
def Obligations.FlagsRiseOnlyAtTheirException : Prop :=
  ∀ s t : State, step s = .next t →
    (flagShape s = false → flagShape t = true →
      ∃ w rest i, s.host = .command w :: rest ∧ decode w = .ok i ∧ isEncode i = true ∧
        ¬ shapeGood i s) ∧
    (flagCmd s = false → flagCmd t = true →
      ∃ w rest, s.host = .command w :: rest ∧ IllegalByRule w)

/-- `OVALID` (rule R18): a successful encode sets it, a rejected one and a reset clear it, and no other
command and no illegal word changes it. -/
def Obligations.OvalidTellsTheLastEncode : Prop :=
  (∀ (s : State) (w : Word) (rest : List HostEvent), s.host = .command w :: rest →
    ∃ t, step s = .next t ∧
      (∀ i, decode w = .ok i → isEncode i = true → (t.ovalid = true ↔ shapeGood i s)) ∧
      (∀ i, decode w = .ok i → isEncode i = false → t.ovalid = s.ovalid) ∧
      (∀ r, decode w = .error r → t.ovalid = s.ovalid)) ∧
  (∀ (s : State) (rest : List HostEvent), s.host = .reset :: rest →
    ∃ t, step s = .next t ∧ t.ovalid = false)

/-- A step that changes a result register is a reset or an encode command of good shape; a step that
changes a sample slot is a push (10_state.md section 10, a table the spec marks derived; a reset
gives the slots no value in the spec, so it is left out here). -/
def Obligations.OnlyTheirCommandsChangeRegisters : Prop :=
  ∀ s t : State, step s = .next t → (∀ rest, s.host ≠ .reset :: rest) →
    (resultOf t ≠ resultOf s →
      ∃ w rest i, s.host = .command w :: rest ∧ decode w = .ok i ∧ isEncode i = true ∧
        shapeGood i s) ∧
    (t.samples ≠ s.samples →
      ∃ w rest, s.host = .command w :: rest ∧
        ((∃ ch v, decode w = .ok (.push ch v)) ∨ ∃ c0 c1 c2, decode w = .ok (.pushv c0 c1 c2))) ∧
    (t.cnt ≠ s.cnt →
      ∃ w rest i, s.host = .command w :: rest ∧ decode w = .ok i ∧ i ≠ .nop ∧ i ≠ .clrf)

/-- Every step keeps the result registers those of one block or of none: the length, the zero upper half
of a BC4 block, the order of the endpoint bytes, the constant fields of a BC7 block, `PART` equal to
`PARTID` and below `NPART`, and the bounds of the error scores (10_state.md section 5). -/
def Obligations.StepKeepsResultsCoherent : Prop :=
  ∀ s t : State, ResultsCoherent s → step s = .next t → ResultsCoherent t

/-- The reset state has it (10_state.md section 9). -/
def Obligations.ResetResultsAreCoherent : Prop := ResultsCoherent State.reset

/-- No run can show what a slot that no push has written holds: from two states that differ only there,
every run gives two states that differ only there, with the same port values (10_state.md section 2,
a property the spec marks derived). The value 0 that the model gives the slots at reset, log entry 3,
is therefore not observable. -/
def Obligations.UnpushedSlotsAreNeverObserved : Prop :=
  ∀ (k : Nat) (s t : State), SameButUnpushed s t →
    ∃ s' t', Host.Core.run Sys2Proof.core k s = .next s' ∧
      Host.Core.run Sys2Proof.core k t = .next t' ∧
      SameButUnpushed s' t' ∧ ports s' = ports t'

/-! ### What the host reads (20_memory.md, 10_state.md) -/

/-- `MemRead` gives the bytes of `OUT` in range and faults out of range; after a successful `ENC4` bytes 8
to 15 read as zero (20_memory.md section 2). The fault out of range is the model's, log entry 8. -/
def Obligations.MemReadGivesTheBytesOfOut : Prop :=
  (∀ (s : State) (addr n : Nat),
    (addr + n ≤ 16 → ∃ bs, memRead s addr n = .ok bs ∧ bs.length = n ∧
      ∀ k, k < n → bs[k]? = some (s.out.extractLsb' (8 * (addr + k)) 8)) ∧
    (16 < addr + n → memRead s addr n = .error (.outsideOutputSpace addr n))) ∧
  (∀ s t : State, count s .c0 = 16 → exec .enc4 s = .next t →
    memRead t 8 8 = .ok (List.replicate 8 0#8))

/-- Reading `OUT` as 32-bit or as 64-bit words and storing each little-endian gives the byte stream
(20_memory.md section 1, a sentence the spec marks derived). Past the 16 bytes of `OUT`, where the spec
has no word and no byte, both sides are the zero bits of the model's choice, log entry 20. -/
def Obligations.WordReadsGiveTheSameByteStream : Prop :=
  ∀ s : State,
    (∀ w k : Nat, k < 4 → (outWord32 s w).extractLsb' (8 * k) 8 = outByte s (4 * w + k)) ∧
    (∀ w k : Nat, k < 8 → (outWord64 s w).extractLsb' (8 * k) 8 = outByte s (8 * w + k))

/-- The ports show the registers, and bits `[5c+4:5c]` of the port `cnt` are `CNT[c]` (10_state.md
section 5). -/
def Obligations.PortsShowTheRegisters : Prop :=
  ∀ s : State,
    (∀ c, (ports s).cnt.extractLsb' (5 * (channelNumber c).toNat) 5 = s.cnt.get c) ∧
    (ports s).out = s.out ∧ (ports s).olen = s.olen ∧ (ports s).ovalid = s.ovalid ∧
    (ports s).err0 = s.err0 ∧ (ports s).err1 = s.err1 ∧ (ports s).part = s.part ∧
    (ports s).flags = s.flags

/-! ### Configuration -/

/-- A partition table is built exactly when it has 1 to 64 entries and every entry has a pixel in each
subset; any other is refused (rule R5). -/
def Obligations.OnlyWellFormedTablesAreConfigured : Prop :=
  ∀ masks : List PartitionMask,
    let good := 1 ≤ masks.length ∧ masks.length ≤ 64 ∧
      ∀ m ∈ masks, (∃ i, i < 16 ∧ m.getLsbD i = false) ∧ ∃ j, j < 16 ∧ m.getLsbD j = true
    (good → ∃ t, configure masks = .ok t ∧ t.entries = masks) ∧
    (¬ good → configure masks = .error .illFormedPartitionTable)

/-! ### The endpoint estimator (40_estimator.md) -/

/-- `EST1` is the rounded and clamped least-squares line: for the distinct values of `V` in ascending
order, at least two of them, the endpoints are the exact line at the first and the last index, each
rounded to the nearest integer with ties up and clamped to a byte; clamping first gives the same
(rules R66, R68, R70, R71). -/
def Obligations.EstimatorIsTheRoundedLeastSquaresLine : Prop :=
  ∀ (V : List Byte) (u : List Nat), u.Pairwise (· < ·) → (∀ x, x ∈ u ↔ ∃ v ∈ V, v.toNat = x) →
    2 ≤ u.length →
    ((est1 V).1.toNat : Int) = max 0 (min 255 ⌊(lineEnds u).1 + 1 / 2⌋) ∧
    ((est1 V).2.toNat : Int) = max 0 (min 255 ⌊(lineEnds u).2 + 1 / 2⌋) ∧
    ((est1 V).1.toNat : Int) = ⌊max 0 (min 255 (lineEnds u).1) + 1 / 2⌋ ∧
    ((est1 V).2.toNat : Int) = ⌊max 0 (min 255 (lineEnds u).2) + 1 / 2⌋

/-- One distinct value: both endpoints are that value (rule R67). -/
def Obligations.EstimatorOfOneValue : Prop :=
  ∀ (V : List Byte) (v : Byte), V ≠ [] → (∀ x ∈ V, x = v) → est1 V = (v, v)

/-- `a <= b` always (40_estimator.md Properties, item 1, which the spec marks derived). -/
def Obligations.EstimatorEndpointsAreOrdered : Prop :=
  ∀ V : List Byte, V ≠ [] → (est1 V).1.toNat ≤ (est1 V).2.toNat

/-- Equally spaced distinct values give the first and the last of them exactly; with two values, these two
(40_estimator.md Properties, items 3 and 4, which the spec marks derived). -/
def Obligations.EstimatorIsExactOnEquallySpacedValues : Prop :=
  ∀ (V : List Byte) (lo d n : Nat), 2 ≤ n → 1 ≤ d → lo + (n - 1) * d < 256 →
    (∀ x : Nat, (∃ v ∈ V, v.toNat = x) ↔ ∃ k, k < n ∧ x = lo + k * d) →
    est1 V = (BitVec.ofNat 8 lo, BitVec.ofNat 8 (lo + (n - 1) * d))

/-- `EST1` depends only on the set of values: order and repetition have no influence (40_estimator.md
Properties, item 5, which the spec marks derived). -/
def Obligations.EstimatorDependsOnTheSetOfValues : Prop :=
  ∀ V W : List Byte, (∀ x, x ∈ V ↔ x ∈ W) → est1 V = est1 W

/-- `EST3`: each channel of the endpoints is `EST1` of that channel of the pixels, on its own (rule R73). -/
def Obligations.ColourEstimatorFitsEachChannel : Prop :=
  ∀ P : List Colour, P ≠ [] → ∀ c : Channel,
    ((est3 P).1.get c, (est3 P).2.get c) = est1 (P.map fun p => p.get c)

/-! ### The palette expander (41_palette_index.md) -/

/-- The palettes of 4, 6 and 8 levels, entry by entry, with the anchors 0 and 255, their lengths, and
that the interpolated steps run monotonically from `a` to `b` (rules R77, R78). -/
def Obligations.PaletteEntriesByLevelCount : Prop :=
  ∀ a b : Byte,
    let x := a.toNat
    let y := b.toNat
    let r := fun num den : Nat => (2 * num + den) / (2 * den)
    let steps := fun L : Levels =>
      let P := (paletteEntries (expand1 a b L)).map BitVec.toNat
      P.take 1 ++ (P.drop 2).take (levelCount L - 2) ++ (P.drop 1).take 1
    (paletteEntries (expand1 a b .four)).map BitVec.toNat =
      [x, y, r (2 * x + y) 3, r (x + 2 * y) 3] ∧
    (paletteEntries (expand1 a b .six)).map BitVec.toNat =
      [x, y, r (4 * x + y) 5, r (3 * x + 2 * y) 5, r (2 * x + 3 * y) 5, r (x + 4 * y) 5,
        0, 255] ∧
    (paletteEntries (expand1 a b .eight)).map BitVec.toNat =
      [x, y, r (6 * x + y) 7, r (5 * x + 2 * y) 7, r (4 * x + 3 * y) 7, r (3 * x + 4 * y) 7,
        r (2 * x + 5 * y) 7, r (x + 6 * y) 7] ∧
    (∀ L, (steps L).length = levelCount L) ∧
    (x ≤ y → ∀ L, (steps L).Pairwise (· ≤ ·)) ∧
    (y ≤ x → ∀ L, (steps L).Pairwise (· ≥ ·))

/-- A step of the palette is the integer nearest to the weighted mean, strictly nearer than one half, and
lies between the endpoints, so the saturation never acts (41_palette_index.md, the expander; the spec
marks the last part derived). -/
def Obligations.PaletteStepIsTheNearestInteger : Prop :=
  ∀ (a b : Byte) (L : Levels) (j : Nat), j < levelCount L →
    2 * ((levelCount L - 1) * (paletteStep a b L j).toNat : Int) <
      2 * ((levelCount L - 1 - j) * a.toNat + j * b.toNat) + (levelCount L - 1) ∧
    2 * ((levelCount L - 1 - j) * a.toNat + j * b.toNat) <
      2 * ((levelCount L - 1) * (paletteStep a b L j).toNat : Int) + (levelCount L - 1) ∧
    min a.toNat b.toNat ≤ (paletteStep a b L j).toNat ∧
    (paletteStep a b L j).toNat ≤ max a.toNat b.toNat

/-- `EXPAND3`: four entries, each channel the 4-level palette of that channel; entries 0 and 1 are the two
colours (rule R80). -/
def Obligations.ColourPaletteIsThreeScalarPalettes : Prop :=
  ∀ A B : Colour,
    (paletteEntries (expand3 A B)).length = 4 ∧
    (∀ c, (paletteEntries (expand3 A B)).map (fun p => p.get c) =
      paletteEntries (expand1 (A.get c) (B.get c) .four)) ∧
    (paletteEntries (expand3 A B))[0]? = some A ∧ (paletteEntries (expand3 A B))[1]? = some B

/-! ### The index mapper (41_palette_index.md) -/

/-- `MAP1`: one index per sample, in order, each that of the first entry at the least absolute
difference, which is at most 255; the error is the sum of these differences, at most 255 a sample, and 0
exactly when every sample is a palette entry (rules R81, R82, R83, R84). -/
def Obligations.ScalarMapperChoosesTheFirstNearestEntry : Prop :=
  ∀ (V : List Byte) (P : Palette Byte),
    let d := fun v p : Byte => ((v.toNat : Int) - p.toNat).natAbs
    let idx := (map1 V P).1
    idx.length = V.length ∧
    (∀ (i : Nat) v, V[i]? = some v → ∃ j p, idx[i]? = some j ∧ (paletteEntries P)[j]? = some p ∧
      ∀ (k : Nat) q, (paletteEntries P)[k]? = some q → d v p ≤ d v q ∧ (k < j → d v p < d v q)) ∧
    (∃ ps : List Byte, idx.map (fun j => (paletteEntries P)[j]?) = ps.map some ∧
      (map1 V P).2 = (List.zipWith d V ps).sum) ∧
    (map1 V P).2 ≤ 255 * V.length ∧
    ((map1 V P).2 = 0 ↔ ∀ v ∈ V, v ∈ paletteEntries P) ∧
    ∀ v p, d v p ≤ 255

/-- `MAP3`: the same with the squared Euclidean distance, at most 195075 a sample (rules R86, R88). -/
def Obligations.ColourMapperChoosesTheFirstNearestEntry : Prop :=
  ∀ (V : List Colour) (P : Palette Colour),
    let d := fun v p : Colour =>
      (((v.c0.toNat : Int) - p.c0.toNat) ^ 2 + ((v.c1.toNat : Int) - p.c1.toNat) ^ 2 +
        ((v.c2.toNat : Int) - p.c2.toNat) ^ 2).toNat
    let idx := (map3 V P).1
    idx.length = V.length ∧
    (∀ (i : Nat) v, V[i]? = some v → ∃ j p, idx[i]? = some j ∧ (paletteEntries P)[j]? = some p ∧
      ∀ (k : Nat) q, (paletteEntries P)[k]? = some q → d v p ≤ d v q ∧ (k < j → d v p < d v q)) ∧
    (∃ ps : List Colour, idx.map (fun j => (paletteEntries P)[j]?) = ps.map some ∧
      (map3 V P).2 = (List.zipWith d V ps).sum) ∧
    (map3 V P).2 ≤ 195075 * V.length ∧
    ((map3 V P).2 = 0 ↔ ∀ v ∈ V, v ∈ paletteEntries P)

/-! ### BC4 and BC5 blocks (43_bc4_bc5.md, 30_encoding.md Part B) -/

/-- `BC4CORE`: the endpoints of `EST1`, the level choice, the indices and the error of `MAP1`; in the
block, bytes 0 and 1 are the endpoints, and the three bits at `16 + 3i` give back the index of sample
`i`, which is below 8 (rules R53, R100, R102). -/
def Obligations.Bc4BlockHoldsEndpointsAndIndices : Prop :=
  ∀ V : Block Byte,
    let e := est1 V.toList
    let m := map1 V.toList (expand1 e.1 e.2 (if e.1.toNat > e.2.toNat then .eight else .six))
    (bc4core V).1.extractLsb' 0 8 = e.1 ∧ (bc4core V).1.extractLsb' 8 8 = e.2 ∧
    (bc4core V).2 = m.2 ∧
    ∀ i, i < 16 → ∃ j, m.1[i]? = some j ∧ j < 8 ∧
      ((bc4core V).1.extractLsb' (16 + 3 * i) 3).toNat = j

/-- A block of two values `lo < hi` is lossless: the endpoints are the two values, the index of a sample
is 0 or 1 as it is `lo` or `hi`, and the error is 0 (43_bc4_bc5.md, Consequences, which the spec
marks derived). -/
def Obligations.TwoValueBlockIsLossless : Prop :=
  ∀ (V : Block Byte) (lo hi : Byte), lo.toNat < hi.toNat → lo ∈ V.toList → hi ∈ V.toList →
    (∀ v ∈ V.toList, v = lo ∨ v = hi) →
    (bc4core V).1.extractLsb' 0 8 = lo ∧ (bc4core V).1.extractLsb' 8 8 = hi ∧
    (bc4core V).2 = 0 ∧
    ∀ i : Fin 16, (bc4core V).1.extractLsb' (16 + 3 * i.val) 3 = if V[i] = hi then 1#3 else 0#3

/-! ### BC7 blocks (44_bc7.md, 30_encoding.md Part B) -/

/-- In a well-formed table every pixel is in exactly one subset of each partition, the members stand in
increasing order, and neither subset is empty (rule R111). -/
def Obligations.SubsetsPartitionThePixels : Prop :=
  ∀ (t : PartitionTable) (m : PartitionMask), m ∈ t.entries →
    (∀ (s : Bool) (i : Fin 16), i ∈ members m s ↔ m.getLsbD i.val = s) ∧
    (∀ s, (members m s).Pairwise (· < ·)) ∧ (∀ s, members m s ≠ [])

/-- A subset's pixels are mapped against its own palette, which has four entries, and give its error; the
index of pixel `i` under a partition is the element of its subset's Index Stream at the position that
`i` has among the subset's members (rule R113). The model computes the index by the 2-to-1 choice that
the rule names as its hardware form, log entry 12. -/
def Obligations.PixelIndexIsItsSubsetsIndex : Prop :=
  ∀ (V : Block Colour) (m : PartitionMask) (s : Bool),
    let pixels := (members m s).map fun i => V[i]
    let P := expand3 (est3 pixels).1 (est3 pixels).2
    (paletteEntries P).length = 4 ∧ subsetError m s V = (map3 pixels P).2 ∧
    ∀ (j : Nat) (i : Fin 16), (members m s)[j]? = some i →
      ∃ k, (map3 pixels P).1[j]? = some k ∧ (candidateIndices V m)[i.val]? = some k

/-- The error of a partition is the sum of the errors of its two subsets: the sum over all 16 pixels of the
squared distance between the pixel and the entry its index chooses in its own subset's palette, at most
3121200. The partition selected has the least error, and every partition before it a strictly larger
one; the error returned is that error, and the id returned is its number in the table, which is the id
written into the block and into `PART` (rules R114, R115). -/
def Obligations.SelectedPartitionIsTheFirstOfLeastError : Prop :=
  ∀ (t : PartitionTable) (V : Block Colour),
    let r := bc7core t V
    let pixels := fun (m : PartitionMask) (s : Bool) => (members m s).map fun i => V[i]
    let palette := fun (m : PartitionMask) (s : Bool) =>
      expand3 (est3 (pixels m s)).1 (est3 (pixels m s)).2
    let d := fun v p : Colour =>
      (((v.c0.toNat : Int) - p.c0.toNat) ^ 2 + ((v.c1.toNat : Int) - p.c1.toNat) ^ 2 +
        ((v.c2.toNat : Int) - p.c2.toNat) ^ 2).toNat
    (∀ m, candidateError V m =
      (map3 (pixels m false) (palette m false)).2 + (map3 (pixels m true) (palette m true)).2) ∧
    (∀ m, ∃ chosen : Fin 16 → Colour,
      (∀ i : Fin 16, ∃ k, (candidateIndices V m)[i.val]? = some k ∧
        (paletteEntries (palette m (m.getLsbD i.val)))[k]? = some (chosen i)) ∧
      candidateError V m = ∑ i : Fin 16, d V[i] (chosen i)) ∧
    (∀ m, candidateError V m ≤ 3121200) ∧
    (∃ m, t.entries[r.part]? = some m ∧ r.err = candidateError V m) ∧
    (∀ p m, t.entries[p]? = some m →
      r.err ≤ candidateError V m ∧ (p < r.part → r.err < candidateError V m)) ∧
    (r.blk.extractLsb' 4 6).toNat = r.part ∧ (bc7Result t V).part.toNat = r.part

/-- The BC7 mode-3 block, field by field: `MODE`, `PARTID`, the 12 endpoint fields of 7 bits, where each
channel of a subset's endpoints is `EST1` of that channel of the subset's pixels, `PBITS` and the
indices of pixels 0 to 14 (rules R55, R56). -/
def Obligations.Bc7BlockFields : Prop :=
  ∀ (t : PartitionTable) (V : Block Colour) (m : PartitionMask),
    t.entries[(bc7core t V).part]? = some m →
    let blk := (bc7core t V).blk
    let pixels := fun s : Bool => (members m s).map fun i => V[i]
    ∃ E0 E1 E2 E3 : Colour,
      (∀ c : Channel, (E0.get c, E1.get c) = est1 ((pixels false).map fun p => p.get c)) ∧
      (∀ c : Channel, (E2.get c, E3.get c) = est1 ((pixels true).map fun p => p.get c)) ∧
      blk.extractLsb' 0 4 = 8#4 ∧ (blk.extractLsb' 4 6).toNat = (bc7core t V).part ∧
      (∀ c : Channel,
        let base := 10 + 28 * (channelNumber c).toNat
        (blk.extractLsb' base 7).toNat = (E0.get c).toNat / 2 ∧
        (blk.extractLsb' (base + 7) 7).toNat = (E1.get c).toNat / 2 ∧
        (blk.extractLsb' (base + 14) 7).toNat = (E2.get c).toNat / 2 ∧
        (blk.extractLsb' (base + 21) 7).toNat = (E3.get c).toNat / 2) ∧
      blk.extractLsb' 94 4 = 0#4 ∧
      ∀ i, i < 15 → ∃ j, (candidateIndices V m)[i]? = some j ∧ j < 4 ∧
        (blk.extractLsb' (98 + 2 * i) 2).toNat = j

/-- A block of two colours ordered the same way in all channels, a uniform block among them, has error 0
under every partition, so entry 0 of the table is selected (44_bc7.md, Consequences, which the spec
marks derived). -/
def Obligations.TwoColourBlockSelectsEntryZero : Prop :=
  ∀ (t : PartitionTable) (V : Block Colour) (X Y : Colour),
    (∀ c, (X.get c).toNat ≤ (Y.get c).toNat) → (∀ p ∈ V.toList, p = X ∨ p = Y) →
    (∀ m ∈ t.entries, candidateError V m = 0) ∧
    (bc7core t V).part = 0 ∧ (bc7core t V).err = 0

/-- The error scores fit their 22-bit registers: at most 4080 for BC4 and BC5, at most 3121200 for BC7,
and the registers hold the exact scores (10_state.md section 5; the spec marks the bounds derived). -/
def Obligations.ErrorScoresAreExact : Prop :=
  (∀ V : Block Byte, (bc4core V).2 ≤ 4080 ∧ (bc4Result V).err0.toNat = (bc4core V).2) ∧
  (∀ V0 V1 : Block Byte, (bc5Result V0 V1).err0.toNat = (bc4core V0).2 ∧
    (bc5Result V0 V1).err1.toNat = (bc4core V1).2) ∧
  (∀ (t : PartitionTable) (V : Block Colour), (bc7core t V).err ≤ 3121200 ∧
    (bc7Result t V).err0.toNat = (bc7core t V).err)
end

