-- ==== Sys2Proof/Laws/Datapath.lean ====
section
/-! SUPPORT. The shared operations of the datapath: the rounded division, the sorted distinct values, the
scan for the first least item, and the packing of indices. -/

namespace Sys2Proof.Machine

/-! ### Rounding -/

theorem clamp255_eq (v : Int) : clamp255 v = max 0 (min 255 v) := by
  unfold clamp255; split_ifs <;> omega

/-- The rounded quotient is the integer nearest to `num / den`, the upper one of two. -/
theorem roundDiv_bounds (num : Int) {den : Int} (h : 0 < den) :
    2 * den * roundDiv num den ≤ 2 * num + den ∧
      2 * num + den < 2 * den * roundDiv num den + 2 * den := by
  have h2 : 0 < 2 * den := by omega
  have e := Int.mul_ediv_add_emod (2 * num + den) (2 * den)
  have lo := Int.emod_nonneg (2 * num + den) (Int.ne_of_gt h2)
  have hi := Int.emod_lt_of_pos (2 * num + den) h2
  unfold roundDiv
  omega

/-- The rounded quotient is the only integer within its bounds. -/
theorem roundDiv_eq_of_bounds {num den q : Int} (h : 0 < den) (lo : 2 * den * q ≤ 2 * num + den)
    (hi : 2 * num + den < 2 * den * q + 2 * den) : roundDiv num den = q := by
  unfold roundDiv
  refine Int.le_antisymm (Int.lt_add_one_iff.1 ?_) ?_
  · exact Int.ediv_lt_of_lt_mul (by omega) (by
      rw [Int.mul_comm (q + 1), Int.mul_add]; omega)
  · exact (Int.le_ediv_iff_mul_le (by omega)).2 (by rw [Int.mul_comm]; exact lo)

theorem roundToByte_toNat (num den : Int) :
    ((roundToByte num den).toNat : Int) = max 0 (min 255 (roundDiv num den)) := by
  rw [← clamp255_eq]
  have h : 0 ≤ clamp255 (roundDiv num den) ∧ clamp255 (roundDiv num den) < 256 := by
    rw [clamp255_eq]; omega
  simp only [roundToByte, BitVec.toNat_ofInt]
  omega

/-! ### The sorted distinct values -/

@[simp] theorem mem_insertDistinct (x y : Nat) (u : List Nat) :
    y ∈ insertDistinct x u ↔ y = x ∨ y ∈ u := by
  induction u with
  | nil => simp [insertDistinct]
  | cons z u ih =>
    unfold insertDistinct
    split_ifs with h1 h2
    · simp
    · subst h2; simp
    · simp only [List.mem_cons, ih]; tauto

theorem insertDistinct_ascending (x : Nat) (u : List Nat) (h : u.Pairwise (· < ·)) :
    (insertDistinct x u).Pairwise (· < ·) := by
  induction u with
  | nil => simp [insertDistinct]
  | cons z u ih =>
    obtain ⟨hz, hu⟩ := List.pairwise_cons.1 h
    unfold insertDistinct
    split_ifs with h1 h2
    · refine List.pairwise_cons.2 ⟨fun y hy => ?_, h⟩
      rcases List.mem_cons.1 hy with rfl | hy
      · exact h1
      · exact Nat.lt_trans h1 (hz y hy)
    · exact h
    · refine List.pairwise_cons.2 ⟨fun y hy => ?_, ih hu⟩
      rcases (mem_insertDistinct x y u).1 hy with rfl | hy
      · omega
      · exact hz y hy

@[simp] theorem mem_sortDistinct (y : Nat) (xs : List Nat) : y ∈ sortDistinct xs ↔ y ∈ xs := by
  induction xs with
  | nil => simp [sortDistinct]
  | cons x xs ih =>
    simp only [sortDistinct, List.foldr_cons, mem_insertDistinct, List.mem_cons] at ih ⊢
    rw [ih]

theorem sortDistinct_ascending (xs : List Nat) : (sortDistinct xs).Pairwise (· < ·) := by
  induction xs with
  | nil => simp [sortDistinct]
  | cons x xs ih => exact insertDistinct_ascending x _ ih

/-- Two ascending lists with the same members are equal. -/
theorem ascending_ext {u v : List Nat} (hu : u.Pairwise (· < ·)) (hv : v.Pairwise (· < ·))
    (h : ∀ x, x ∈ u ↔ x ∈ v) : u = v := by
  induction u generalizing v with
  | nil =>
    cases v with
    | nil => rfl
    | cons b v => exact absurd ((h b).2 (by simp)) (by simp)
  | cons a u ih =>
    cases v with
    | nil => exact absurd ((h a).1 (by simp)) (by simp)
    | cons b v =>
      obtain ⟨ha, hu'⟩ := List.pairwise_cons.1 hu
      obtain ⟨hb, hv'⟩ := List.pairwise_cons.1 hv
      have hab : a = b := by
        rcases List.mem_cons.1 ((h a).1 (by simp)) with e | e
        · exact e
        · rcases List.mem_cons.1 ((h b).2 (by simp)) with e' | e'
          · exact e'.symm
          · have := ha b e'; have := hb a e; omega
      subst hab
      rw [ih hu' hv' fun x => ?_]
      have hx := h x
      simp only [List.mem_cons] at hx
      constructor
      · intro m
        rcases hx.1 (.inr m) with rfl | m'
        · exact absurd (ha x m) (Nat.lt_irrefl x)
        · exact m'
      · intro m
        rcases hx.2 (.inr m) with rfl | m'
        · exact absurd (hb x m) (Nat.lt_irrefl x)
        · exact m'

/-- The values of rule R66 are the only ascending list with the members of `V`. -/
theorem sortDistinct_eq {xs u : List Nat} (hu : u.Pairwise (· < ·)) (h : ∀ x, x ∈ u ↔ x ∈ xs) :
    sortDistinct xs = u :=
  ascending_ext (sortDistinct_ascending xs) hu fun x => by rw [mem_sortDistinct, h]

/-! ### The scan -/

theorem scanFrom_spec {α : Type} (dist : α → Nat) (ps : List α) :
    ∀ (pre : List α) (best : Found α), pre[best.index]? = some best.item →
      (∀ (k : Nat) q, pre[k]? = some q →
        dist best.item ≤ dist q ∧ (k < best.index → dist best.item < dist q)) →
      (pre ++ ps)[(scanFrom dist ps pre.length best).index]? =
          some (scanFrom dist ps pre.length best).item ∧
      ∀ (k : Nat) q, (pre ++ ps)[k]? = some q →
        dist (scanFrom dist ps pre.length best).item ≤ dist q ∧
          (k < (scanFrom dist ps pre.length best).index →
            dist (scanFrom dist ps pre.length best).item < dist q) := by
  induction ps with
  | nil => intro pre best hb hmin; simpa [scanFrom] using ⟨hb, hmin⟩
  | cons p ps ih =>
    intro pre best hb hmin
    have hlt : best.index < pre.length := (List.getElem?_eq_some_iff.1 hb).1
    have hlen : (pre ++ [p]).length = pre.length + 1 := by simp
    have hsplit : ∀ (k : Nat) q, (pre ++ [p])[k]? = some q →
        pre[k]? = some q ∧ k < pre.length ∨ k = pre.length ∧ q = p := by
      intro k q hk
      rcases Nat.lt_or_ge k pre.length with h | h
      · rw [List.getElem?_append_left h] at hk; exact .inl ⟨hk, h⟩
      · rw [List.getElem?_append_right h] at hk
        obtain ⟨h', e⟩ := List.getElem?_eq_some_iff.1 hk
        simp only [List.length_singleton] at h'
        have hk0 : k = pre.length := by omega
        subst hk0
        exact .inr ⟨rfl, by simpa using e.symm⟩
    have key := ih (pre ++ [p]) (if dist p < dist best.item then ⟨pre.length, p⟩ else best)
    rw [hlen, List.append_assoc, List.singleton_append] at key
    unfold scanFrom
    split_ifs at key ⊢ with hlt'
    · refine key (by simp) fun k q hk => ?_
      rcases hsplit k q hk with ⟨hk, _⟩ | ⟨rfl, rfl⟩
      · have := (hmin k q hk).1
        exact ⟨by simp only; omega, fun _ => by simp only; omega⟩
      · exact ⟨Nat.le_refl _, fun h => absurd h (Nat.lt_irrefl _)⟩
    · refine key (by rw [List.getElem?_append_left hlt]; exact hb) fun k q hk => ?_
      rcases hsplit k q hk with ⟨hk, _⟩ | ⟨rfl, rfl⟩
      · exact hmin k q hk
      · exact ⟨by omega, fun h => by omega⟩

/-- The item found stands at its index, no item is nearer, and every item before it is farther. -/
theorem firstLeast_spec {α : Type} (dist : α → Nat) (first : α) (others : List α) :
    (first :: others)[(firstLeast dist first others).index]? =
        some (firstLeast dist first others).item ∧
    ∀ (k : Nat) q, (first :: others)[k]? = some q →
      dist (firstLeast dist first others).item ≤ dist q ∧
        (k < (firstLeast dist first others).index →
          dist (firstLeast dist first others).item < dist q) := by
  have h := scanFrom_spec dist others [first] ⟨0, first⟩ (by simp) ?_
  · simpa [firstLeast] using h
  · intro k q hk
    obtain ⟨hk', e⟩ := List.getElem?_eq_some_iff.1 hk
    simp only [List.length_singleton] at hk'
    have : k = 0 := by omega
    subst this
    simp only [List.getElem_cons_zero] at e
    subst e
    exact ⟨Nat.le_refl _, fun h => absurd h (Nat.lt_irrefl _)⟩

theorem firstLeast_index_lt {α : Type} (dist : α → Nat) (first : α) (others : List α) :
    (firstLeast dist first others).index < others.length + 1 := by
  simpa using (List.getElem?_eq_some_iff.1 (firstLeast_spec dist first others).1).1

theorem firstLeast_item_mem {α : Type} (dist : α → Nat) (first : α) (others : List α) :
    (firstLeast dist first others).item ∈ first :: others :=
  List.mem_of_getElem? (firstLeast_spec dist first others).1

/-! ### The estimator on a set of values -/

/-- `EST1` fits the line to the ascending list of the values that occur, whatever their order. -/
theorem est1_eq_fitDistinct {V : List Byte} {u : List Nat} (hu : u.Pairwise (· < ·))
    (h : ∀ x, x ∈ u ↔ ∃ v ∈ V, v.toNat = x) : est1 V = fitDistinct u := by
  rw [est1, sortDistinct_eq hu fun x => by rw [h]; simp]

/-! ### The steps of a palette -/

/-- A step as a rounded quotient of natural numbers. -/
theorem paletteStep_toNat (a b : Byte) (L : Levels) (j : Nat) (hj : j < levelCount L) :
    (paletteStep a b L j).toNat =
      (2 * ((levelCount L - 1 - j) * a.toNat + j * b.toNat) + (levelCount L - 1)) /
        (2 * (levelCount L - 1)) := by
  have ha := a.isLt
  have hb := b.isLt
  have r := roundToByte_toNat (((levelCount L : Int) - 1 - j) * (a.toNat : Int) + j * (b.toNat : Int))
    ((levelCount L : Int) - 1)
  unfold paletteStep
  unfold roundDiv at r
  cases L <;> simp only [levelCount] at * <;> interval_cases j <;> push_cast at * <;> omega

/-- The first step is `a`. -/
@[simp] theorem paletteStep_first (a b : Byte) (L : Levels) : paletteStep a b L 0 = a := by
  apply BitVec.eq_of_toNat_eq
  rw [paletteStep_toNat _ _ _ _ (by cases L <;> decide)]
  cases L <;> simp [levelCount] <;> omega

/-- The last step is `b`. -/
@[simp] theorem paletteStep_last (a b : Byte) (L : Levels) :
    paletteStep a b L (levelCount L - 1) = b := by
  apply BitVec.eq_of_toNat_eq
  rw [paletteStep_toNat _ _ _ _ (by cases L <;> decide)]
  cases L <;> simp [levelCount] <;> omega

/-! ### Distances -/

theorem absDist_le (v p : Byte) : absDist v p ≤ 255 := by
  have := v.isLt
  have := p.isLt
  unfold absDist; omega

theorem absDist_eq_zero (v p : Byte) : absDist v p = 0 ↔ v = p := by
  unfold absDist
  refine ⟨fun h => BitVec.eq_of_toNat_eq (by omega), ?_⟩
  rintro rfl; simp

theorem sqDist_le (v p : Colour) : sqDist v p ≤ 195075 := by
  have h0 := absDist_le v.c0 p.c0
  have h1 := absDist_le v.c1 p.c1
  have h2 := absDist_le v.c2 p.c2
  unfold sqDist; nlinarith

theorem sqDist_eq_zero (v p : Colour) : sqDist v p = 0 ↔ v = p := by
  simp only [sqDist, Nat.add_eq_zero_iff, pow_eq_zero_iff two_ne_zero, absDist_eq_zero]
  cases v; cases p
  simp only [Triple.mk.injEq, and_assoc]

/-! ### Concatenation as a sum -/

/-- The number of a concatenation; what the packers' layouts come down to. -/
theorem append_toNat {n k : Nat} (x : BitVec n) (y : BitVec k) :
    (x ++ y).toNat = x.toNat * 2 ^ k + y.toNat := by
  rw [BitVec.toNat_append, ← Nat.shiftLeft_add_eq_or_of_lt y.isLt, Nat.shiftLeft_eq]

/-! ### Packing -/

theorem packIndices_lt (w : Nat) (idx : List Nat) (h : ∀ i ∈ idx, i < 2 ^ w) :
    packIndices w idx < 2 ^ (w * idx.length) := by
  induction idx with
  | nil => simp [packIndices]
  | cons i is ih =>
    have hi := h i (by simp)
    have his := ih fun j hj => h j (by simp [hj])
    have e : 2 ^ (w * (i :: is).length) = 2 ^ (w * is.length) * 2 ^ w := by
      rw [List.length_cons, Nat.mul_succ, Nat.pow_add]
    rw [e]
    simp only [packIndices]
    calc i + packIndices w is * 2 ^ w < 2 ^ w + packIndices w is * 2 ^ w := by omega
      _ = (packIndices w is + 1) * 2 ^ w := by rw [Nat.add_mul, Nat.one_mul, Nat.add_comm]
      _ ≤ 2 ^ (w * is.length) * 2 ^ w := Nat.mul_le_mul_right _ his

/-- Unpacking gives every index back. -/
theorem packIndices_field (w : Nat) (idx : List Nat) (h : ∀ i ∈ idx, i < 2 ^ w) (k j : Nat)
    (hk : idx[k]? = some j) : packIndices w idx / 2 ^ (w * k) % 2 ^ w = j := by
  induction idx generalizing k with
  | nil => simp at hk
  | cons i is ih =>
    have hi := h i (by simp)
    cases k with
    | zero =>
      simp only [List.getElem?_cons_zero, Option.some.injEq] at hk
      subst hk
      simp [packIndices, Nat.mod_eq_of_lt hi]
    | succ k =>
      rw [List.getElem?_cons_succ] at hk
      rw [← ih (fun j hj => h j (by simp [hj])) k hk]
      have e : 2 ^ (w * (k + 1)) = 2 ^ w * 2 ^ (w * k) := by
        rw [Nat.mul_succ, Nat.add_comm, Nat.pow_add]
      rw [e, ← Nat.div_div_eq_div_mul]
      congr 2
      simp only [packIndices]
      rw [Nat.add_mul_div_right _ _ (Nat.two_pow_pos w), Nat.div_eq_of_lt hi, Nat.zero_add]

/-! ### Lengths -/

@[simp] theorem mapWith_length {σ α : Type} (dist : σ → α → Nat) (V : List σ) (P : Palette α) :
    (mapWith dist V P).1.length = V.length := by simp [mapWith]

@[simp] theorem expand1_length (a b : Byte) (L : Levels) :
    (paletteEntries (expand1 a b L)).length = if L = .four then 4 else 8 := by
  cases L <;> rfl

@[simp] theorem candidateIndices_length (V : Block Colour) (m : PartitionMask) :
    (candidateIndices V m).length = 16 := by simp [candidateIndices]

end Sys2Proof.Machine
end

