-- ==== Sys2Proof/Laws/Operands.lean ====
section
/-! SUPPORT. Channels, counters and slots as the commands read them. -/

namespace Sys2Proof

@[simp] theorem Triple.get_c0 {α : Type} (v : Triple α) : v.get .c0 = v.c0 := rfl
@[simp] theorem Triple.get_c1 {α : Type} (v : Triple α) : v.get .c1 = v.c1 := rfl
@[simp] theorem Triple.get_c2 {α : Type} (v : Triple α) : v.get .c2 = v.c2 := rfl

/-- A write to one channel is seen by that channel alone. -/
theorem Triple.get_set {α : Type} (v : Triple α) (c c' : Channel) (x : α) :
    (v.set c x).get c' = if c' = c then x else v.get c' := by
  cases c <;> cases c' <;> rfl

@[simp] theorem Triple.get_set_self {α : Type} (v : Triple α) (c : Channel) (x : α) :
    (v.set c x).get c = x := by cases c <;> rfl

/-- Two triples with the same components are equal. -/
theorem Triple.ext_get {α : Type} {v w : Triple α} (h : ∀ c, v.get c = w.get c) : v = w := by
  cases v; cases w
  simp only [Triple.mk.injEq]
  exact ⟨h .c0, h .c1, h .c2⟩

namespace Machine

open Safety

@[simp] theorem channelOf_channelNumber (c : Channel) : channelOf (channelNumber c) = some c := by
  cases c <;> rfl

/-- Only the field value 3 names no channel. -/
theorem channelOf_eq_none_iff (ch : BitVec 2) : channelOf ch = none ↔ ch = 3#2 := by
  revert ch; decide

/-- A field value that names a channel is that channel's number. -/
theorem channelOf_eq_some_iff (ch : BitVec 2) (c : Channel) :
    channelOf ch = some c ↔ ch = channelNumber c := by
  revert ch; cases c <;> decide

theorem count_lt (s : State) (c : Channel) : count s c < 32 := (s.cnt.get c).isLt

/-- The counter goes up by one and stops at 31. -/
@[simp] theorem countUp_toNat (n : BitVec 5) : (countUp n).toNat = min (n.toNat + 1) 31 := by
  have := n.isLt
  simp only [countUp, BitVec.toNat_ofNat]
  omega

theorem holdsBlock_iff (s : State) (c : Channel) : holdsBlock s c = true ↔ count s c = 16 := by
  simp [holdsBlock]

@[simp] theorem pixelBlock_get (s : State) (i : Fin 16) :
    (pixelBlock s)[i] = ⟨slot s .c0 i, slot s .c1 i, slot s .c2 i⟩ := by
  simp [pixelBlock]

@[simp] theorem sampleBlock_get (s : State) (c : Channel) (k : Fin 16) :
    (sampleBlock s c)[k] = slot s c k := rfl

end Machine

end Sys2Proof
end

