-- ==== Sys2Proof/Laws/State.lean ====
section
/-! SUPPORT. One lemma per field of State and per update of the shared operations, so that no later
proof unfolds a record update. -/

namespace Sys2Proof.Machine

@[simp] theorem setFlag_samples (e : Exception) (s : State) :
    (setFlag e s).samples = s.samples := rfl
@[simp] theorem setFlag_cnt (e : Exception) (s : State) : (setFlag e s).cnt = s.cnt := rfl
@[simp] theorem setFlag_out (e : Exception) (s : State) : (setFlag e s).out = s.out := rfl
@[simp] theorem setFlag_olen (e : Exception) (s : State) : (setFlag e s).olen = s.olen := rfl
@[simp] theorem setFlag_ovalid (e : Exception) (s : State) : (setFlag e s).ovalid = s.ovalid := rfl
@[simp] theorem setFlag_err0 (e : Exception) (s : State) : (setFlag e s).err0 = s.err0 := rfl
@[simp] theorem setFlag_err1 (e : Exception) (s : State) : (setFlag e s).err1 = s.err1 := rfl
@[simp] theorem setFlag_part (e : Exception) (s : State) : (setFlag e s).part = s.part := rfl
@[simp] theorem setFlag_flags (e : Exception) (s : State) :
    (setFlag e s).flags = flagsWith e s.flags := rfl
@[simp] theorem setFlag_host (e : Exception) (s : State) : (setFlag e s).host = s.host := rfl

@[simp] theorem clearFlags_samples (s : State) : (clearFlags s).samples = s.samples := rfl
@[simp] theorem clearFlags_cnt (s : State) : (clearFlags s).cnt = s.cnt := rfl
@[simp] theorem clearFlags_out (s : State) : (clearFlags s).out = s.out := rfl
@[simp] theorem clearFlags_olen (s : State) : (clearFlags s).olen = s.olen := rfl
@[simp] theorem clearFlags_ovalid (s : State) : (clearFlags s).ovalid = s.ovalid := rfl
@[simp] theorem clearFlags_err0 (s : State) : (clearFlags s).err0 = s.err0 := rfl
@[simp] theorem clearFlags_err1 (s : State) : (clearFlags s).err1 = s.err1 := rfl
@[simp] theorem clearFlags_part (s : State) : (clearFlags s).part = s.part := rfl
@[simp] theorem clearFlags_flags (s : State) : (clearFlags s).flags = 0#2 := rfl
@[simp] theorem clearFlags_host (s : State) : (clearFlags s).host = s.host := rfl

@[simp] theorem pushSample_samples (c : Channel) (v : Byte) (s : State) :
    (pushSample c v s).samples = s.samples.set c (storeSlot (s.samples.get c) (count s c) v) := rfl
@[simp] theorem pushSample_cnt (c : Channel) (v : Byte) (s : State) :
    (pushSample c v s).cnt = s.cnt.set c (countUp (s.cnt.get c)) := rfl
@[simp] theorem pushSample_out (c : Channel) (v : Byte) (s : State) :
    (pushSample c v s).out = s.out := rfl
@[simp] theorem pushSample_olen (c : Channel) (v : Byte) (s : State) :
    (pushSample c v s).olen = s.olen := rfl
@[simp] theorem pushSample_ovalid (c : Channel) (v : Byte) (s : State) :
    (pushSample c v s).ovalid = s.ovalid := rfl
@[simp] theorem pushSample_err0 (c : Channel) (v : Byte) (s : State) :
    (pushSample c v s).err0 = s.err0 := rfl
@[simp] theorem pushSample_err1 (c : Channel) (v : Byte) (s : State) :
    (pushSample c v s).err1 = s.err1 := rfl
@[simp] theorem pushSample_part (c : Channel) (v : Byte) (s : State) :
    (pushSample c v s).part = s.part := rfl
@[simp] theorem pushSample_flags (c : Channel) (v : Byte) (s : State) :
    (pushSample c v s).flags = s.flags := rfl
@[simp] theorem pushSample_host (c : Channel) (v : Byte) (s : State) :
    (pushSample c v s).host = s.host := rfl

@[simp] theorem clearCounters_samples (s : State) : (clearCounters s).samples = s.samples := rfl
@[simp] theorem clearCounters_cnt (s : State) : (clearCounters s).cnt = ⟨0#5, 0#5, 0#5⟩ := rfl
@[simp] theorem clearCounters_out (s : State) : (clearCounters s).out = s.out := rfl
@[simp] theorem clearCounters_olen (s : State) : (clearCounters s).olen = s.olen := rfl
@[simp] theorem clearCounters_ovalid (s : State) : (clearCounters s).ovalid = s.ovalid := rfl
@[simp] theorem clearCounters_err0 (s : State) : (clearCounters s).err0 = s.err0 := rfl
@[simp] theorem clearCounters_err1 (s : State) : (clearCounters s).err1 = s.err1 := rfl
@[simp] theorem clearCounters_part (s : State) : (clearCounters s).part = s.part := rfl
@[simp] theorem clearCounters_flags (s : State) : (clearCounters s).flags = s.flags := rfl
@[simp] theorem clearCounters_host (s : State) : (clearCounters s).host = s.host := rfl

@[simp] theorem takeException_shape_samples (s : State) :
    (takeException .shape s).samples = s.samples := rfl
@[simp] theorem takeException_shape_cnt (s : State) :
    (takeException .shape s).cnt = ⟨0#5, 0#5, 0#5⟩ := rfl
@[simp] theorem takeException_shape_out (s : State) : (takeException .shape s).out = s.out := rfl
@[simp] theorem takeException_shape_olen (s : State) : (takeException .shape s).olen = s.olen := rfl
@[simp] theorem takeException_shape_ovalid (s : State) :
    (takeException .shape s).ovalid = false := rfl
@[simp] theorem takeException_shape_err0 (s : State) : (takeException .shape s).err0 = s.err0 := rfl
@[simp] theorem takeException_shape_err1 (s : State) : (takeException .shape s).err1 = s.err1 := rfl
@[simp] theorem takeException_shape_part (s : State) : (takeException .shape s).part = s.part := rfl
@[simp] theorem takeException_shape_flags (s : State) :
    (takeException .shape s).flags = flagsWith .shape s.flags := rfl
@[simp] theorem takeException_shape_host (s : State) : (takeException .shape s).host = s.host := rfl

@[simp] theorem takeException_illegal_samples (s : State) :
    (takeException .illegal s).samples = s.samples := rfl
@[simp] theorem takeException_illegal_cnt (s : State) :
    (takeException .illegal s).cnt = s.cnt := rfl
@[simp] theorem takeException_illegal_out (s : State) :
    (takeException .illegal s).out = s.out := rfl
@[simp] theorem takeException_illegal_olen (s : State) :
    (takeException .illegal s).olen = s.olen := rfl
@[simp] theorem takeException_illegal_ovalid (s : State) :
    (takeException .illegal s).ovalid = s.ovalid := rfl
@[simp] theorem takeException_illegal_err0 (s : State) :
    (takeException .illegal s).err0 = s.err0 := rfl
@[simp] theorem takeException_illegal_err1 (s : State) :
    (takeException .illegal s).err1 = s.err1 := rfl
@[simp] theorem takeException_illegal_part (s : State) :
    (takeException .illegal s).part = s.part := rfl
@[simp] theorem takeException_illegal_flags (s : State) :
    (takeException .illegal s).flags = flagsWith .illegal s.flags := rfl
@[simp] theorem takeException_illegal_host (s : State) :
    (takeException .illegal s).host = s.host := rfl

@[simp] theorem writeResult_samples (r : Result) (s : State) :
    (writeResult r s).samples = s.samples := rfl
@[simp] theorem writeResult_cnt (r : Result) (s : State) : (writeResult r s).cnt = s.cnt := rfl
@[simp] theorem writeResult_out (r : Result) (s : State) : (writeResult r s).out = r.out := rfl
@[simp] theorem writeResult_olen (r : Result) (s : State) : (writeResult r s).olen = r.olen := rfl
@[simp] theorem writeResult_ovalid (r : Result) (s : State) : (writeResult r s).ovalid = true := rfl
@[simp] theorem writeResult_err0 (r : Result) (s : State) : (writeResult r s).err0 = r.err0 := rfl
@[simp] theorem writeResult_err1 (r : Result) (s : State) : (writeResult r s).err1 = r.err1 := rfl
@[simp] theorem writeResult_part (r : Result) (s : State) : (writeResult r s).part = r.part := rfl
@[simp] theorem writeResult_flags (r : Result) (s : State) :
    (writeResult r s).flags = s.flags := rfl
@[simp] theorem writeResult_host (r : Result) (s : State) : (writeResult r s).host = s.host := rfl

@[simp] theorem resetEvent_samples (s : State) : (resetEvent s).samples = State.reset.samples := rfl
@[simp] theorem resetEvent_cnt (s : State) : (resetEvent s).cnt = State.reset.cnt := rfl
@[simp] theorem resetEvent_out (s : State) : (resetEvent s).out = State.reset.out := rfl
@[simp] theorem resetEvent_olen (s : State) : (resetEvent s).olen = State.reset.olen := rfl
@[simp] theorem resetEvent_ovalid (s : State) : (resetEvent s).ovalid = State.reset.ovalid := rfl
@[simp] theorem resetEvent_err0 (s : State) : (resetEvent s).err0 = State.reset.err0 := rfl
@[simp] theorem resetEvent_err1 (s : State) : (resetEvent s).err1 = State.reset.err1 := rfl
@[simp] theorem resetEvent_part (s : State) : (resetEvent s).part = State.reset.part := rfl
@[simp] theorem resetEvent_flags (s : State) : (resetEvent s).flags = State.reset.flags := rfl
@[simp] theorem resetEvent_host (s : State) : (resetEvent s).host = s.host := rfl

@[simp] theorem presentCommand_samples (w : Word) (s : State) :
    (presentCommand w s).samples = s.samples := rfl
@[simp] theorem presentCommand_cnt (w : Word) (s : State) : (presentCommand w s).cnt = s.cnt := rfl
@[simp] theorem presentCommand_out (w : Word) (s : State) : (presentCommand w s).out = s.out := rfl
@[simp] theorem presentCommand_olen (w : Word) (s : State) :
    (presentCommand w s).olen = s.olen := rfl
@[simp] theorem presentCommand_ovalid (w : Word) (s : State) :
    (presentCommand w s).ovalid = s.ovalid := rfl
@[simp] theorem presentCommand_err0 (w : Word) (s : State) :
    (presentCommand w s).err0 = s.err0 := rfl
@[simp] theorem presentCommand_err1 (w : Word) (s : State) :
    (presentCommand w s).err1 = s.err1 := rfl
@[simp] theorem presentCommand_part (w : Word) (s : State) :
    (presentCommand w s).part = s.part := rfl
@[simp] theorem presentCommand_flags (w : Word) (s : State) :
    (presentCommand w s).flags = s.flags := rfl
@[simp] theorem presentCommand_host (w : Word) (s : State) :
    (presentCommand w s).host = .command w :: s.host := rfl

end Sys2Proof.Machine
end

