-- ==== Sys2Proof/Laws/Ops.lean ====
section
/-! SUPPORT. What each shared operation and one step can do, said once. -/

namespace Sys2Proof.Machine

open Safety

/-! ### Pushing a sample -/

theorem count_pushSample (c c' : Channel) (v : Byte) (s : State) :
    count (pushSample c v s) c' = if c' = c then min (count s c + 1) 31 else count s c' := by
  simp only [count, pushSample_cnt, Triple.get_set]
  split
  · rename_i h; subst h; simp
  · rfl

/-- A store is seen by its own slot alone; where there is no slot `k`, nothing is stored. -/
theorem storeSlot_get (b : Block Byte) (k : Nat) (v : Byte) (j : Nat) (hj : j < 16) :
    (storeSlot b k v)[j] = if j = k then v else b[j] := by
  unfold storeSlot
  split
  · simp [Vector.getElem_set, eq_comm (a := k)]
  · have : ¬ j = k := by omega
    simp [this]

theorem slot_pushSample (c c' : Channel) (v : Byte) (s : State) (k : Fin 16) :
    slot (pushSample c v s) c' k =
      if c' = c ∧ k.val = count s c then v else slot s c' k := by
  simp only [slot, pushSample_samples, Fin.getElem_fin]
  by_cases hc : c' = c
  · subst hc; simp [storeSlot_get]
  · simp [hc, Triple.get_set]

/-- A push writes the samples and the counters and nothing else. -/
theorem pushSample_frame (c : Channel) (v : Byte) (s : State) :
    pushSample c v s =
      { s with samples := (pushSample c v s).samples, cnt := (pushSample c v s).cnt } := rfl

/-! ### Exceptions and encode commands -/

theorem takeException_shape_eq (s : State) :
    takeException .shape s =
      { s with cnt := ⟨0#5, 0#5, 0#5⟩, flags := s.flags ||| 1#2, ovalid := false } := rfl

theorem takeException_illegal_eq (s : State) :
    takeException .illegal s = { s with flags := s.flags ||| 2#2 } := rfl

theorem encodeCommand_good (r : Result) (s : State) :
    encodeCommand true r s = { s with
      cnt := ⟨0#5, 0#5, 0#5⟩, out := r.out, olen := r.olen, err0 := r.err0, err1 := r.err1,
      part := r.part, ovalid := true } := rfl

theorem encodeCommand_bad (r : Result) (s : State) :
    encodeCommand false r s =
      { s with cnt := ⟨0#5, 0#5, 0#5⟩, flags := s.flags ||| 1#2, ovalid := false } := rfl

/-! ### The commands -/

theorem exec_nop (s : State) : exec .nop s = .next s := rfl
theorem exec_clr (s : State) : exec .clr s = .next (clearCounters s) := rfl
theorem exec_clrf (s : State) : exec .clrf s = .next (clearFlags s) := rfl

theorem exec_push (c : Channel) (v : Byte) (s : State) :
    exec (.push (channelNumber c) v) s = .next (pushSample c v s) := by
  cases c <;> rfl

theorem exec_pushv (c0 c1 c2 : Byte) (s : State) :
    exec (.pushv c0 c1 c2) s =
      .next (pushSample .c2 c2 (pushSample .c1 c1 (pushSample .c0 c0 s))) := rfl

/-- The result an encode command writes when its shape is good; for the other commands, the result that
is there. -/
def resultIfGood (i : Instr) (s : State) : Result :=
  match i with
  | .nop => resultOf s
  | .clr => resultOf s
  | .push _ _ => resultOf s
  | .pushv _ _ _ => resultOf s
  | .enc4 => bc4Result (sampleBlock s .c0)
  | .enc5 => bc5Result (sampleBlock s .c0) (sampleBlock s .c1)
  | .enc7 => bc7Result Config.partitionTable (pixelBlock s)
  | .clrf => resultOf s

/-- All three encode commands are one operation: the shape check, then the result. -/
theorem exec_encode {i : Instr} (h : isEncode i = true) (s : State) :
    ∃ g : Bool, (g = true ↔ shapeGood i s) ∧
      exec i s = .next (encodeCommand g (resultIfGood i s) s) := by
  cases i <;> simp only [isEncode, Bool.false_eq_true] at h
  · exact ⟨holdsBlock s .c0, by simp [shapeGood, neededChannels, holdsBlock_iff], rfl⟩
  · exact ⟨holdsBlock s .c0 && holdsBlock s .c1,
      by simp [shapeGood, neededChannels, holdsBlock_iff], rfl⟩
  · exact ⟨holdsBlock s .c0 && holdsBlock s .c1 && holdsBlock s .c2,
      by simp [shapeGood, neededChannels, holdsBlock_iff, and_assoc], rfl⟩

/-- What a command can do. -/
theorem exec_cases (i : Instr) (s : State) :
    (i = .nop ∧ exec i s = .next s) ∨
    (i = .clr ∧ exec i s = .next (clearCounters s)) ∨
    (∃ c v, i = .push (channelNumber c) v ∧ exec i s = .next (pushSample c v s)) ∨
    (∃ v, i = .push 3#2 v ∧ exec i s = .next (takeException .illegal s)) ∨
    (∃ c0 c1 c2, i = .pushv c0 c1 c2 ∧
      exec i s = .next (pushSample .c2 c2 (pushSample .c1 c1 (pushSample .c0 c0 s)))) ∨
    (isEncode i = true ∧ shapeGood i s ∧
      exec i s = .next (writeResult (resultIfGood i s) (clearCounters s))) ∨
    (isEncode i = true ∧ ¬ shapeGood i s ∧ exec i s = .next (takeException .shape s)) ∨
    (i = .clrf ∧ exec i s = .next (clearFlags s)) := by
  by_cases he : isEncode i = true
  · obtain ⟨g, hg, h⟩ := exec_encode he s
    cases g
    · exact .inr (.inr (.inr (.inr (.inr (.inr (.inl ⟨he, by simpa using hg, h⟩))))))
    · exact .inr (.inr (.inr (.inr (.inr (.inl ⟨he, by simpa using hg, h⟩)))))
  · cases i with
    | nop => exact .inl ⟨rfl, rfl⟩
    | clr => exact .inr (.inl ⟨rfl, rfl⟩)
    | push ch v =>
      cases hc : channelOf ch with
      | none =>
        obtain rfl := (channelOf_eq_none_iff ch).1 hc
        exact .inr (.inr (.inr (.inl ⟨v, rfl, rfl⟩)))
      | some c =>
        obtain rfl := (channelOf_eq_some_iff ch c).1 hc
        exact .inr (.inr (.inl ⟨c, v, rfl, exec_push c v s⟩))
    | pushv c0 c1 c2 => exact .inr (.inr (.inr (.inr (.inl ⟨c0, c1, c2, rfl, rfl⟩))))
    | clrf => exact .inr (.inr (.inr (.inr (.inr (.inr (.inr ⟨rfl, rfl⟩))))))
    | enc4 => simp [isEncode] at he
    | enc5 => simp [isEncode] at he
    | enc7 => simp [isEncode] at he

/-! ### The step -/

/-- What an accepted word can do. -/
theorem acceptCommand_cases (w : Word) (s : State) :
    (∃ i, decode w = .ok i ∧ acceptCommand w s = exec i s) ∨
    (∃ r, decode w = .error r ∧ acceptCommand w s = .next (takeException .illegal s)) := by
  cases h : decode w with
  | ok i => exact .inl ⟨i, rfl, by simp [acceptCommand, h]⟩
  | error r => exact .inr ⟨r, rfl, by simp [acceptCommand, h]⟩

/-- What a step can do. -/
theorem step_cases (s : State) :
    (s.host = [] ∧ step s = .next s) ∨
    (∃ rest, s.host = .reset :: rest ∧ step s = .next (resetEvent { s with host := rest })) ∨
    (∃ w rest i, s.host = .command w :: rest ∧ decode w = .ok i ∧
      step s = exec i { s with host := rest }) ∨
    (∃ w rest r, s.host = .command w :: rest ∧ decode w = .error r ∧
      step s = .next (takeException .illegal { s with host := rest })) := by
  cases h : s.host with
  | nil => exact .inl ⟨rfl, by simp [step, takeEvent, h]⟩
  | cons e rest =>
    cases e with
    | reset => exact .inr (.inl ⟨rest, rfl, by simp [step, takeEvent, h, acceptEvent]⟩)
    | command w =>
      have hs : step s = acceptCommand w { s with host := rest } := by
        simp [step, takeEvent, h, acceptEvent]
      rcases acceptCommand_cases w { s with host := rest } with ⟨i, hd, ha⟩ | ⟨r, hd, ha⟩
      · exact .inr (.inr (.inl ⟨w, rest, i, rfl, hd, hs.trans ha⟩))
      · exact .inr (.inr (.inr ⟨w, rest, r, rfl, hd, hs.trans ha⟩))

/-- A run of `k + 1` steps of any machine is a step and a run of `k`. -/
theorem coreRun_succ (M : Host.Core) {s t : M.State} (k : Nat) (h : M.step s = .next t) :
    M.run (k + 1) s = M.run k t := by
  simp [Host.Core.run, h]

/-- The same for BCENC. -/
theorem run_succ {s t : State} (k : Nat) (h : step s = .next t) :
    Host.Core.run Sys2Proof.core (k + 1) s = Host.Core.run Sys2Proof.core k t :=
  coreRun_succ Sys2Proof.core k h

/-! ### Reading -/

theorem memRead_of_le {s : State} {addr n : Nat} (h : addr + n ≤ 16) :
    memRead s addr n = .ok ((List.range n).map fun k => outByte s (addr + k)) := by
  simp [memRead, h]

theorem memRead_of_gt {s : State} {addr n : Nat} (h : 16 < addr + n) :
    memRead s addr n = .error (.outsideOutputSpace addr n) := by
  simp [memRead, Nat.not_le.2 h]

/-- The table row's word is the next event, and what was there stays behind it. -/
@[simp] theorem withFetchWord_host (s : State) (nbits w : Nat) :
    (s.withFetchWord nbits w).host = .command (tableWord nbits w) :: s.host := rfl

/-- The next step runs exactly the word that `withFetchWord` placed. -/
theorem step_withFetchWord (s : State) (nbits w : Nat) :
    step (s.withFetchWord nbits w) = acceptCommand (tableWord nbits w) s :=
  rfl

end Sys2Proof.Machine
end

