-- ==== Sys2Proof/Laws/PerInstr.lean ====
section
/-! SUPPORT. Statements for all commands, one lemma per command. The family `EncodedOpcode`: the opcode
field of the word of a command is the one the opcode map gives it (30_encoding.md rule R47). -/

namespace Sys2Proof.Laws

/-- The opcode of the map of rule R47. -/
def opcodeOf : Instr → BitVec 4
  | .nop => 0x0#4
  | .clr => 0x1#4
  | .push _ _ => 0x2#4
  | .pushv _ _ _ => 0x3#4
  | .enc4 => 0x4#4
  | .enc5 => 0x5#4
  | .enc7 => 0x7#4
  | .clrf => 0x8#4

/-- The opcode field of the command's word is its opcode. -/
def EncodedOpcode.Statement (i : Instr) : Prop := opField (encode i) = opcodeOf i

theorem EncodedOpcode.nop : EncodedOpcode.Statement .nop := by
  rw [EncodedOpcode.Statement]; decide

theorem EncodedOpcode.clr : EncodedOpcode.Statement .clr := by
  rw [EncodedOpcode.Statement]; decide

theorem EncodedOpcode.push (ch : BitVec 2) (v : Byte) :
    EncodedOpcode.Statement (.push ch v) := by
  rw [EncodedOpcode.Statement]
  apply BitVec.eq_of_getLsbD_eq
  intro i hi
  simp only [opField, encode, opcodeOf, BitVec.getLsbD_extractLsb', BitVec.getLsbD_append]
  interval_cases i <;> simp

theorem EncodedOpcode.pushv (c0 c1 c2 : Byte) :
    EncodedOpcode.Statement (.pushv c0 c1 c2) := by
  rw [EncodedOpcode.Statement]
  apply BitVec.eq_of_getLsbD_eq
  intro i hi
  simp only [opField, encode, opcodeOf, BitVec.getLsbD_extractLsb', BitVec.getLsbD_append]
  interval_cases i <;> simp

theorem EncodedOpcode.enc4 : EncodedOpcode.Statement .enc4 := by
  rw [EncodedOpcode.Statement]; decide

theorem EncodedOpcode.enc5 : EncodedOpcode.Statement .enc5 := by
  rw [EncodedOpcode.Statement]; decide

theorem EncodedOpcode.enc7 : EncodedOpcode.Statement .enc7 := by
  rw [EncodedOpcode.Statement]; decide

theorem EncodedOpcode.clrf : EncodedOpcode.Statement .clrf := by
  rw [EncodedOpcode.Statement]; decide

end Sys2Proof.Laws
end

