-- ==== Sys2Proof/Tests/Slice0.lean ====
section
/-! SUPPORT. Tests of the model: expected values come from spec/95_test_vectors.md, and the number in a
name is the vector's. After them, for every statement with hypotheses, a state and operands that meet all
of them together. -/

namespace Sys2Proof.Tests

open Sys2Proof.Machine Sys2Proof.Safety

-- One theorem after the other: checked all at once, the kernel evaluations below each take a thread.
set_option Elab.async false

/-! ### Small states -/

/-- The state an outcome goes on with. -/
def nextState : Host.Outcome State Fault Refusal → Option State
  | .next t => some t
  | .fault _ => none
  | .refused _ => none

/-- The reset state with the slots and the counters given. -/
def loaded (b0 b1 b2 : Block Byte) (n0 n1 n2 : BitVec 5) : State :=
  { State.reset with samples := ⟨b0, b1, b2⟩, cnt := ⟨n0, n1, n2⟩ }

/-- Sixteen equal samples. -/
def flat (v : Byte) : Block Byte := Vector.replicate 16 v

/-- The samples of V4-5. -/
def ramp : Block Byte := Vector.ofFn fun i => BitVec.ofNat 8 (17 * i.val)

/-- The samples of V4-10. -/
def lowThenHigh : Block Byte :=
  Vector.ofFn fun i => if i.val < 8 then BitVec.ofNat 8 (10 + 3 * i.val) else 250#8

/-- Channel 1 of V5-2 and of V7-5. -/
def hundredsThenFives : Block Byte :=
  Vector.ofFn fun i => if i.val < 8 then 100#8 else BitVec.ofNat 8 (5 * (i.val - 8))

/-- Channel 2 of V7-5. -/
def fiftiesThenFalling : Block Byte :=
  Vector.ofFn fun i => if i.val < 8 then 50#8 else BitVec.ofNat 8 (200 - i.val)

/-- The pixels of V7-7. -/
def lastPixels : Block Colour := Vector.ofFn fun i =>
  if i.val < 13 then ⟨0#8, 0#8, 0#8⟩
  else if i.val = 13 then ⟨60#8, 60#8, 60#8⟩
  else if i.val = 14 then ⟨120#8, 120#8, 120#8⟩ else ⟨255#8, 255#8, 255#8⟩

/-- TV-PTAB. -/
def tvTable : PartitionTable where
  first := 0xCCCC#16
  rest := [0xFF00#16, 0x5A5A#16, 0x8000#16]
  wf := by decide

/-- Every channel holds 16 samples, those of V7-5; some registers are not at their reset values. -/
def full : State :=
  { loaded lowThenHigh hundredsThenFives fiftiesThenFalling 16#5 16#5 16#5 with
    flags := 3#2, ovalid := true, olen := 8#5, part := 5#6 }

/-- The reset state with a word presented. -/
def presented (w : Word) : State := { State.reset with host := [.command w, .reset] }

/-! ### Well-formedness, configuration, the assembler -/

theorem test_push_to_channel_three_is_ill_formed : (Instr.push 3#2 5#8).wellFormed = false := by
  decide

theorem test_push_to_channel_two_is_well_formed : (Instr.push 2#2 5#8).wellFormed = true := by
  decide

theorem test_configure_refuses_no_entries :
    configure [] = .error .illFormedPartitionTable := by decide

theorem test_configure_refuses_an_empty_subset_one :
    configure [0xCCCC#16, 0x0000#16] = .error .illFormedPartitionTable := by decide

theorem test_configure_refuses_an_empty_subset_zero :
    configure [0xFFFF#16] = .error .illFormedPartitionTable := by decide

theorem test_configure_refuses_65_entries :
    configure (List.replicate 65 0x0001#16) = .error .illFormedPartitionTable := by decide +kernel

theorem test_configure_accepts_64_entries :
    (configure (List.replicate 64 0x0001#16)).toOption.map PartitionTable.npart = some 64 := by
  decide +kernel

theorem test_assembler_refuses_channel_three : (AsmLine.push 3 0).assemble = none := by decide

theorem test_assembler_refuses_256 : (AsmLine.pushv 0 256 0).assemble = none := by decide

theorem test_assembler_load1_refuses_256 :
    (AsmLine.load1 1 ((Vector.replicate 16 255).set 15 256)).assemble = none := by decide +kernel

theorem test_assembler_load1_is_sixteen_pushes :
    (AsmLine.load1 1 (Vector.replicate 16 255)).assemble =
      some (List.replicate 16 0x210000FF#32) := by decide +kernel

/-! ### Decoding, words of 95_test_vectors.md section 2.0 and section 3 -/

theorem test_decode_nop : decode 0x00000000#32 = .ok .nop := by decide
theorem test_decode_clr : decode 0x10000000#32 = .ok .clr := by decide
theorem test_decode_push : decode 0x22000080#32 = .ok (.push 2#2 128#8) := by decide
theorem test_decode_pushv : decode 0x305ADC14#32 = .ok (.pushv 20#8 220#8 90#8) := by decide
theorem test_decode_enc4 : decode 0x40000000#32 = .ok .enc4 := by decide
theorem test_decode_enc5 : decode 0x50000000#32 = .ok .enc5 := by decide
theorem test_decode_enc7 : decode 0x70000000#32 = .ok .enc7 := by decide
theorem test_decode_clrf : decode 0x80000000#32 = .ok .clrf := by decide

theorem test_decode_illegal_words :
    decode 0x00000001#32 = .error .reservedBits ∧
    decode 0x23000005#32 = .error .noSuchChannel ∧
    decode 0x20000100#32 = .error .reservedBits ∧
    decode 0x24000000#32 = .error .reservedBits ∧
    decode 0x31000000#32 = .error .reservedBits ∧
    decode 0x40000001#32 = .error .reservedBits ∧
    decode 0x60000000#32 = .error .reservedOpcode ∧
    decode 0x80000001#32 = .error .reservedBits ∧
    decode 0x90000000#32 = .error .reservedOpcode ∧
    decode 0xF0000000#32 = .error .reservedOpcode := by decide

theorem test_decodeTableWord : decodeTableWord 32 0x2100007F = some (.push 1#2 0x7F#8) ∧
    decodeTableWord 32 0x60000000 = none := by decide

/-! ### The commands, one step each -/

/-- The core alone, word by word, without a host. -/
theorem test_registerStep :
    (match registerStep 0x80000000#32 full.toRegisters with
      | .next r => some r
      | .fault _ => none
      | .refused _ => none) = some { full.toRegisters with flags := 0#2 } := by decide +kernel

theorem test_nop : nextState (exec .nop full) = some full := by decide +kernel

theorem test_clr : nextState (exec .clr full) = some { full with cnt := ⟨0#5, 0#5, 0#5⟩ } := by
  decide +kernel

/-- The last slot of a channel. -/
theorem test_push_fills_slot_15 :
    (nextState (exec (.push 1#2 7#8) (loaded (flat 1) (flat 2) (flat 3) 15#5 15#5 31#5))).map
        (fun t => ((t.samples.get .c1).toList, (t.samples.get .c0).toList, t.cnt)) =
      some (List.replicate 15 2#8 ++ [7#8], List.replicate 16 1#8, ⟨15#5, 16#5, 31#5⟩) := by
  decide +kernel

/-- Saturation at 31, no slot written (section 2.0). -/
theorem test_push_saturates :
    (nextState (exec (.push 1#2 7#8) (loaded (flat 1) (flat 2) (flat 3) 0#5 31#5 0#5))).map
        (fun t => (t.samples, t.cnt)) =
      some (⟨flat 1, flat 2, flat 3⟩, ⟨0#5, 31#5, 0#5⟩) := by decide +kernel

/-- Each channel at its own counter: 0, 16 and 31. -/
theorem test_pushv_uses_each_counter :
    (nextState (exec (.pushv 200#8 10#8 30#8)
          (loaded (flat 1) (flat 2) (flat 3) 0#5 16#5 31#5))).map
        (fun t => ((t.samples.get .c0).toList, t.samples.c1, t.samples.c2, t.cnt)) =
      some (200#8 :: List.replicate 15 1#8, flat 2, flat 3, ⟨1#5, 17#5, 31#5⟩) := by decide +kernel

theorem test_clrf : nextState (exec .clrf full) = some { full with flags := 0#2 } := by
  decide +kernel

/-- V4-10: the anchor 255 at index 7, the clamped endpoint 0. -/
theorem test_enc4_V4_10 :
    nextState (exec .enc4 full) = some { full with
      cnt := ⟨0#5, 0#5, 0#5⟩, out := 0xFFFFFF49_24907400#128, olen := 8#5, err0 := 87#22
      part := 0#6, ovalid := true } := by decide +kernel

/-- V8-3: 17 samples are too many. -/
theorem test_enc4_rejects_17 :
    (nextState (exec .enc4 (loaded (flat 1) (flat 2) (flat 3) 17#5 16#5 16#5))).map
        (fun t => (t.flags, t.ovalid, t.out, t.cnt)) =
      some (1#2, false, 0#128, ⟨0#5, 0#5, 0#5⟩) := by decide +kernel

/-- V5-2. -/
theorem test_enc5_V5_2 :
    (nextState (exec .enc5 full)).map (fun t => (blockBytes t, t.err0, t.err1)) =
      some ([0x00#8, 0x74#8, 0x90#8, 0x24#8, 0x49#8, 0xFF#8, 0xFF#8, 0xFF#8,
        0x00#8, 0x3F#8, 0x49#8, 0x92#8, 0x24#8, 0x80#8, 0xB4#8, 0x8D#8], 87#22, 319#22) := by
  decide +kernel

/-- V8-4: mismatched lengths. -/
theorem test_enc5_rejects_mismatched_counts :
    (nextState (exec .enc5 (loaded (flat 1) (flat 2) (flat 3) 16#5 15#5 0#5))).map
        (fun t => (t.flags, t.ovalid, t.cnt)) =
      some (1#2, false, ⟨0#5, 0#5, 0#5⟩) := by decide +kernel

/-- V7-5 under TV-PTAB. -/
theorem test_enc7_V7_5 :
    (fun t => (blockBytes t, t.err0, t.err1, t.part)) (enc7With tvTable full) =
      ([0x18#8, 0x14#8, 0x1E#8, 0xFD#8, 0xBE#8, 0x4C#8, 0x06#8, 0x88#8,
        0x64#8, 0x32#8, 0x5C#8, 0x30#8, 0x80#8, 0x7E#8, 0x81#8, 0x7E#8], 300#22, 0#22, 1#6) := by
  decide +kernel

/-- V8-6: channel 2 is short. -/
theorem test_enc7_rejects_a_short_channel :
    (nextState (exec .enc7 (loaded (flat 1) (flat 2) (flat 3) 16#5 16#5 0#5))).map
        (fun t => (t.flags, t.ovalid, t.cnt)) =
      some (1#2, false, ⟨0#5, 0#5, 0#5⟩) := by rfl

/-- V8-7: an illegal word sets `FLAGS.CMD` and nothing else. -/
theorem test_illegal_word_sets_only_flag_cmd :
    nextState (step { full with flags := 0#2, host := [.command 0x90000000#32] }) =
      some { full with flags := 2#2 } := by decide +kernel

/-- A word of the table is accepted as the first command after reset. -/
theorem test_withFetchWord_runs_the_word :
    (nextState (step (State.reset.withFetchWord 32 0x22000080))).map
        (fun t => (slot t .c2 0, t.cnt, t.host)) =
      some (128#8, ⟨0#5, 0#5, 1#5⟩, []) := by decide +kernel

/-! ### The datapath -/

/-- V1-10: the low end clamped. -/
theorem test_est1_V1_10 : est1 [0#8, 1#8, 255#8] = (0#8, 213#8) := by decide +kernel

/-- V1-19: both ties go up. -/
theorem test_est1_V1_19 : est1 [0#8, 4#8, 5#8] = (1#8, 6#8) := by decide +kernel

/-- V1-21: a negative tie. -/
theorem test_est1_V1_21 : est1 [0#8, 1#8, 11#8] = (0#8, 10#8) := by decide +kernel

/-- The example of `EST3`. -/
theorem test_est3 : est3 [⟨200#8, 10#8, 30#8⟩, ⟨20#8, 220#8, 90#8⟩] =
    (⟨20#8, 10#8, 30#8⟩, ⟨200#8, 220#8, 90#8⟩) := by decide +kernel

/-- V2-3. -/
theorem test_expand1_V2_3 : (paletteEntries (expand1 255#8 0#8 .eight)).map BitVec.toNat =
    [255, 0, 219, 182, 146, 109, 73, 36] := by decide +kernel

/-- V2-15. -/
theorem test_expand1_V2_15 : (paletteEntries (expand1 16#8 250#8 .six)).map BitVec.toNat =
    [16, 250, 63, 110, 156, 203, 0, 255] := by decide +kernel

/-- V2-18. -/
theorem test_expand3_V2_18 :
    paletteEntries (expand3 ⟨10#8, 200#8, 0#8⟩ ⟨250#8, 20#8, 0#8⟩) =
      [⟨10#8, 200#8, 0#8⟩, ⟨250#8, 20#8, 0#8⟩, ⟨90#8, 140#8, 0#8⟩, ⟨170#8, 80#8, 0#8⟩] := by
  decide +kernel

/-- V3-3: every kind of tie, both anchors. -/
theorem test_map1_V3_3 :
    map1 [10#8, 11#8, 12#8, 13#8, 14#8, 15#8, 16#8, 17#8, 18#8, 19#8, 20#8, 0#8, 5#8, 255#8, 100#8,
        138#8] (expand1 10#8 20#8 .six) =
      ([0, 0, 2, 2, 3, 3, 4, 4, 5, 1, 1, 6, 0, 7, 1, 7], 207) := by decide +kernel

/-- V4-11: the 8-level path, which no `ENC4` takes. -/
theorem test_bc4_V4_11 :
    bc4FromEndpoints 255#8 0#8 ramp = (0x01_26_E4_B7_6F_C9_00_FF#64, 136) := by decide +kernel

/-- V7-7: pixel 15 decides, and its index is not in the block. -/
theorem test_bc7_V7_7 :
    bc7core tvTable lastPixels = ⟨0x60000000_3FFF7803_FFF7803F_FF780038#128, 3, 1200⟩ := by
  decide +kernel

/-! ### Witnesses: the hypotheses of each statement can be met together

Where a statement has several clauses, there is one witness for each, at a boundary of its range. -/

/-- Two states that differ only in unpushed slots: channel 0 has one sample, which is the same. -/
def onePushed : State := loaded (flat 9) (flat 1) (flat 2) 1#5 0#5 0#5

/-- The other of the two. -/
def onePushedOther : State :=
  loaded ((flat 0).set 0 9#8) (flat 3) (flat 4) 1#5 0#5 0#5

theorem test_witness_DecodeEncodeRoundTrip :
    (Instr.push 2#2 255#8).wellFormed = true ∧ (Instr.pushv 0#8 255#8 1#8).wellFormed = true := by
  decide

theorem test_witness_LegalWordIsTheEncodingOfItsCommand :
    decode 0x220000FF#32 = .ok (.push 2#2 255#8) := by decide

theorem test_witness_OpcodeMapByMatchAndMask :
    (0x60000000#32).extractLsb' 28 4 = 0x6#4 ∧ 0x9 ≤ ((0x90000000#32).extractLsb' 28 4).toNat ∧
    0x9 ≤ ((0xF0000000#32).extractLsb' 28 4).toNat := by decide

theorem test_witness_IllegalWordSetsOnlyFlagCmd :
    (presented 0x23000005#32).host = [.command 0x23000005#32, .reset] ∧
    IllegalByRule 0x23000005#32 ∧ IllegalByRule 0x60000000#32 ∧ IllegalByRule 0x90000000#32 ∧
    IllegalByRule 0x00000001#32 ∧ IllegalByRule 0x88000000#32 ∧ IllegalByRule 0x24000000#32 ∧
    IllegalByRule 0x20000100#32 ∧ IllegalByRule 0x31000000#32 ∧ ¬ IllegalByRule 0x22000000#32 := by
  simp [IllegalByRule, presented]

theorem test_witness_AssemblerEmitsOnlyLegalWords :
    (AsmLine.push 2 255).assemble = some [0x220000FF#32] ∧
    (AsmLine.load1 0 (Vector.replicate 16 7)).assemble =
      some (List.replicate 16 0x20000007#32) ∧
    (AsmLine.load3 (Vector.replicate 16 ⟨255, 0, 1⟩)).assemble =
      some (List.replicate 16 0x300100FF#32) := by decide +kernel

theorem test_witness_StepDecodesThenRunsTheCommand :
    (presented 0x22000080#32).host = [.command 0x22000080#32, .reset] ∧
    decode 0x22000080#32 = .ok (.push 2#2 128#8) ∧
    (presented 0xF0000000#32).host = [.command 0xF0000000#32, .reset] ∧
    decode 0xF0000000#32 = .error .reservedOpcode := by decide

theorem test_witness_StepIsTheRegisterStepOfTheWord :
    (presented 0x22000080#32).host = [.command 0x22000080#32, .reset] := rfl

theorem test_witness_ResetEventRestoresTheResetState :
    ({ full with host := [.reset, .command 0#32] } : State).host = .reset :: [.command 0#32] := rfl

theorem test_witness_NopChangesNothing :
    (0x00000001#32).extractLsb' 28 4 = 0x0#4 ∧ 0x00000001#32 ≠ 0#32 := by decide

theorem test_witness_ClrClearsTheCounters :
    (∀ c, count State.reset c = 0) ∧ isEncode .enc4 = true ∧
    (∃ t, exec .enc4 full = .next t) ∧ ∃ t, exec .clr full = .next t := by
  refine ⟨fun c => by cases c <;> decide, rfl, ⟨_, rfl⟩, ⟨_, rfl⟩⟩

theorem test_witness_PushAppendsOneSample :
    (presented 0x23000005#32).host = [.command 0x23000005#32, .reset] ∧
    (0x23000005#32).extractLsb' 28 4 = 0x2#4 ∧ (0x23000005#32).extractLsb' 24 2 = 3#2 ∧
    (0x24000000#32).extractLsb' 28 4 = 0x2#4 ∧ (0x24000000#32).extractLsb' 26 2 ≠ 0#2 ∧
    (0x20000100#32).extractLsb' 28 4 = 0x2#4 ∧ (0x20000100#32).extractLsb' 8 16 ≠ 0#16 := by
  decide

/-- The clause on too many pushes, at 17 and at 31. -/
theorem test_witness_PushAppendsOneSample_excess :
    isEncode .enc5 = true ∧ Channel.c1 ∈ neededChannels .enc5 ∧
    16 < count (loaded (flat 1) (flat 2) (flat 3) 16#5 17#5 0#5) .c1 ∧
    16 < count (loaded (flat 1) (flat 2) (flat 3) 16#5 31#5 0#5) .c1 := by decide

theorem test_witness_PushvAppendsOneSamplePerChannel :
    (presented 0x31000000#32).host = [.command 0x31000000#32, .reset] ∧
    (0x31000000#32).extractLsb' 28 4 = 0x3#4 ∧ (0x31000000#32).extractLsb' 24 4 ≠ 0#4 ∧
    isEncode .enc7 = true := by decide

theorem test_witness_ClrfClearsTheFlags :
    flagShape State.reset = false ∧ flagCmd State.reset = false := by decide

theorem test_witness_PushesFillSlotsInOrderAndSaturate : count onePushed .c1 = 0 := by decide

theorem test_witness_Enc4EncodesOrRejects :
    count full .c0 = 16 ∧ count (loaded (flat 1) (flat 2) (flat 3) 15#5 0#5 0#5) .c0 ≠ 16 ∧
    count (loaded (flat 1) (flat 2) (flat 3) 17#5 0#5 0#5) .c0 ≠ 16 ∧
    isEncode .enc5 = true ∧ ∃ t, exec .enc5 full = .next t := by
  exact ⟨by decide, by decide, by decide, rfl, _, rfl⟩

/-- The clause on sixteen equal samples. -/
theorem test_witness_Enc4EncodesOrRejects_constant :
    count (loaded (flat 255) (flat 0) (flat 0) 16#5 0#5 0#5) .c0 = 16 ∧
    ∀ k, slot (loaded (flat 255) (flat 0) (flat 0) 16#5 0#5 0#5) .c0 k = 255#8 := by decide +kernel

theorem test_witness_Enc5EncodesOrRejects :
    (count full .c0 = 16 ∧ count full .c1 = 16) ∧
    count (loaded (flat 1) (flat 2) (flat 3) 15#5 16#5 0#5) .c0 ≠ 16 ∧
    count (loaded (flat 1) (flat 2) (flat 3) 16#5 17#5 0#5) .c1 ≠ 16 ∧
    count (loaded (flat 1) (flat 2) (flat 3) 16#5 15#5 0#5) .c0 ≠
      count (loaded (flat 1) (flat 2) (flat 3) 16#5 15#5 0#5) .c1 := by decide

/-- The clause on two equal channels. -/
theorem test_witness_Enc5EncodesOrRejects_equal_channels :
    count (loaded ramp ramp (flat 3) 16#5 16#5 0#5) .c0 = 16 ∧
    count (loaded ramp ramp (flat 3) 16#5 16#5 0#5) .c1 = 16 ∧
    ∀ k, slot (loaded ramp ramp (flat 3) 16#5 16#5 0#5) .c0 k =
      slot (loaded ramp ramp (flat 3) 16#5 16#5 0#5) .c1 k := by decide +kernel

theorem test_witness_Enc7EncodesOrRejects :
    (∀ c, count full c = 16) ∧
    ∃ c, count (loaded (flat 1) (flat 2) (flat 3) 16#5 16#5 15#5) c ≠ 16 :=
  ⟨fun c => by cases c <;> decide, .c2, by decide⟩

theorem test_witness_ShapeIsRaisedByBadCountsOnly :
    isEncode .enc5 = true ∧ shapeGood .enc5 full ∧
    ¬ shapeGood .enc5 (loaded (flat 1) (flat 2) (flat 3) 16#5 17#5 0#5) := by
  unfold shapeGood; decide

theorem test_witness_LoadedSamplesAreWhatEnc4Encodes : count State.reset .c0 = 0 := by decide

theorem test_witness_LoadedPixelsAreWhatEnc7Encodes : ∀ c, count State.reset c = 0 :=
  fun c => by cases c <;> decide

/-- The two states differ in channels 1 and 2 and in every other register. -/
theorem test_witness_EncodeResultDependsOnSamplesOnly :
    isEncode .enc4 = true ∧
    ∀ c ∈ neededChannels .enc4, count full c = 16 ∧
      count (loaded lowThenHigh (flat 0) (flat 0) 16#5 3#5 0#5) c = 16 ∧
      sampleBlock full c = sampleBlock (loaded lowThenHigh (flat 0) (flat 0) 16#5 3#5 0#5) c := by
  decide +kernel

theorem test_witness_FlagsAreSticky :
    (∃ t, step { full with host := [.command 0x10000000#32] } = .next t) ∧
    (∀ rest, ({ full with host := [.command 0x10000000#32] } : State).host ≠
      .command 0x80000000#32 :: rest) ∧
    (∀ rest, ({ full with host := [.command 0x10000000#32] } : State).host ≠ .reset :: rest) ∧
    flagShape { full with host := [.command 0x10000000#32] } = true ∧
    flagCmd { full with host := [.command 0x10000000#32] } = true := by
  refine ⟨⟨_, rfl⟩, fun r h => ?_, fun r h => ?_, by decide, by decide⟩
  · exact absurd (congrArg List.head? h) (by simp)
  · exact absurd (congrArg List.head? h) (by simp)

theorem test_witness_FlagsRiseOnlyAtTheirException :
    (∃ t, step (presented 0x40000000#32) = .next t ∧ flagShape (presented 0x40000000#32) = false ∧
      flagShape t = true) ∧
    ∃ t, step (presented 0x90000000#32) = .next t ∧ flagCmd (presented 0x90000000#32) = false ∧
      flagCmd t = true := by
  exact ⟨⟨_, rfl, by decide, by decide⟩, ⟨_, rfl, by decide, by decide⟩⟩

theorem test_witness_OvalidTellsTheLastEncode :
    (presented 0x40000000#32).host = [.command 0x40000000#32, .reset] ∧
    decode 0x40000000#32 = .ok .enc4 ∧ isEncode .enc4 = true ∧
    decode 0x10000000#32 = .ok .clr ∧ isEncode .clr = false ∧
    decode 0x90000000#32 = .error .reservedOpcode ∧
    ({ full with host := [.reset] } : State).host = .reset :: [] := by decide

theorem test_witness_OnlyTheirCommandsChangeRegisters :
    (∃ t, step { full with host := [.command 0x40000000#32] } = .next t ∧
      resultOf t ≠ resultOf { full with host := [.command 0x40000000#32] } ∧
      t.cnt ≠ full.cnt ∧
      ∀ rest, ({ full with host := [.command 0x40000000#32] } : State).host ≠ .reset :: rest) ∧
    (∃ t, step (presented 0x22000080#32) = .next t ∧
      t.samples ≠ (presented 0x22000080#32).samples ∧
      ∀ rest, (presented 0x22000080#32).host ≠ .reset :: rest) := by
  refine ⟨⟨_, rfl, by decide +kernel, by decide +kernel, fun r h => ?_⟩,
    ⟨_, rfl, by decide +kernel, fun r h => ?_⟩⟩
  · exact absurd (congrArg List.head? h) (by simp)
  · exact absurd (congrArg List.head? h) (by simp [presented])

theorem test_witness_StepKeepsResultsCoherent :
    ResultsCoherent (presented 0x40000000#32) ∧
      ∃ t, step (presented 0x40000000#32) = .next t :=
  ⟨.inl ⟨rfl, rfl⟩, _, rfl⟩

/-- The invariant is not the reset state's alone: it holds where a block is in the registers, and it can
fail. -/
theorem test_witness_ResultsCoherent_says_something :
    HoldsBc4 { full with
      out := 0xFFFFFF49_24907400#128, olen := 8#5, err0 := 87#22, err1 := 0#22, part := 0#6 } ∧
    ¬ HoldsBc4 { full with
      out := 0xFFFFFF49_24900074#128, olen := 8#5, err0 := 87#22, err1 := 0#22, part := 0#6 } := by
  unfold HoldsBc4 endpointsOrdered; decide +kernel

theorem test_witness_UnpushedSlotsAreNeverObserved :
    SameButUnpushed onePushed onePushedOther ∧ onePushed ≠ onePushedOther :=
  ⟨⟨rfl, fun c => by cases c <;> decide +kernel⟩, by decide +kernel⟩

theorem test_witness_MemReadGivesTheBytesOfOut :
    0 + 16 ≤ 16 ∧ 16 + 0 ≤ 16 ∧ 16 < 15 + 2 ∧ 16 < 17 + 0 ∧ 15 < 16 ∧ count full .c0 = 16 ∧
    ∃ t, exec .enc4 full = .next t := by
  exact ⟨by decide, by decide, by decide, by decide, by decide, by decide, _, rfl⟩

theorem test_witness_WordReadsGiveTheSameByteStream :
    outWord32 { full with out := 0x0F0E0D0C_0B0A0908_07060504_03020100#128 } 3 = 0x0F0E0D0C#32 ∧
    outWord64 { full with out := 0x0F0E0D0C_0B0A0908_07060504_03020100#128 } 1 =
      0x0F0E0D0C_0B0A0908#64 := by decide +kernel

theorem test_witness_OnlyWellFormedTablesAreConfigured :
    (1 ≤ [0x8000#16].length ∧ [0x8000#16].length ≤ 64 ∧
      ∀ m ∈ [0x8000#16], (∃ i, i < 16 ∧ m.getLsbD i = false) ∧ ∃ j, j < 16 ∧ m.getLsbD j = true) ∧
    ¬ (1 ≤ ([] : List PartitionMask).length) ∧ ¬ ((List.replicate 65 0x8000#16).length ≤ 64) ∧
    ¬ ∃ j, j < 16 ∧ (0x0000#16).getLsbD j = true := by
  refine ⟨⟨by decide, by decide, fun m hm => ?_⟩, by decide, by simp, by simp⟩
  obtain rfl := List.mem_singleton.1 hm
  exact ⟨⟨14, by decide, by decide⟩, ⟨15, by decide, by decide⟩⟩

theorem test_witness_EstimatorIsTheRoundedLeastSquaresLine :
    [0, 255].Pairwise (· < ·) ∧
    (∀ x, x ∈ [0, 255] ↔ ∃ v ∈ [255#8, 0#8, 255#8], v.toNat = x) ∧ 2 ≤ [0, 255].length := by
  refine ⟨by decide, fun x => ⟨fun h => ?_, ?_⟩, by decide⟩
  · rcases List.mem_cons.1 h with rfl | h
    · exact ⟨0#8, by decide, rfl⟩
    · exact ⟨255#8, by decide, (List.mem_singleton.1 h).symm⟩
  · rintro ⟨v, hv, rfl⟩
    simp only [List.mem_cons, List.not_mem_nil, or_false] at hv
    rcases hv with rfl | rfl | rfl <;> decide

theorem test_witness_EstimatorOfOneValue :
    [7#8, 7#8] ≠ [] ∧ ∀ x ∈ [7#8, 7#8], x = 7#8 := by decide

theorem test_witness_EstimatorEndpointsAreOrdered : [255#8, 0#8] ≠ [] := by decide

theorem test_witness_EstimatorIsExactOnEquallySpacedValues :
    2 ≤ 2 ∧ 1 ≤ 255 ∧ 0 + (2 - 1) * 255 < 256 ∧
    ∀ x : Nat, (∃ v ∈ [255#8, 0#8], v.toNat = x) ↔ ∃ k, k < 2 ∧ x = 0 + k * 255 := by
  refine ⟨by decide, by decide, by decide, fun x => ?_⟩
  constructor
  · rintro ⟨v, hv, rfl⟩
    simp only [List.mem_cons, List.not_mem_nil, or_false] at hv
    rcases hv with rfl | rfl
    · exact ⟨1, by decide, by decide⟩
    · exact ⟨0, by decide, by decide⟩
  · rintro ⟨k, hk, rfl⟩
    interval_cases k
    · exact ⟨0#8, by decide, by decide⟩
    · exact ⟨255#8, by decide, by decide⟩

theorem test_witness_EstimatorDependsOnTheSetOfValues :
    ∀ x, x ∈ [128#8, 0#8, 128#8, 0#8] ↔ x ∈ [0#8, 128#8] := by
  intro x; simp; tauto

theorem test_witness_ColourEstimatorFitsEachChannel :
    [(⟨200#8, 10#8, 30#8⟩ : Colour), ⟨20#8, 220#8, 90#8⟩] ≠ [] := by decide

theorem test_witness_PaletteEntriesByLevelCount :
    (0#8).toNat ≤ (255#8).toNat ∧ (7#8).toNat ≤ (7#8).toNat := by decide

theorem test_witness_PaletteStepIsTheNearestInteger :
    0 < levelCount .four ∧ 7 < levelCount .eight := by decide

theorem test_witness_ScalarMapperChoosesTheFirstNearestEntry :
    [5#8][0]? = some 5#8 ∧ (paletteEntries (expand1 10#8 20#8 .six))[7]? = some 255#8 ∧
    ∀ v ∈ [255#8], v ∈ paletteEntries (expand1 10#8 20#8 .six) := by decide +kernel

theorem test_witness_ColourMapperChoosesTheFirstNearestEntry :
    [(⟨5#8, 5#8, 5#8⟩ : Colour)][0]? = some ⟨5#8, 5#8, 5#8⟩ ∧
    (paletteEntries (expand3 ⟨0#8, 0#8, 0#8⟩ ⟨128#8, 128#8, 128#8⟩))[3]? =
      some ⟨85#8, 85#8, 85#8⟩ := by decide +kernel

/-- The last index of V4-10, at bits 61 to 63. -/
theorem test_witness_Bc4BlockHoldsEndpointsAndIndices :
    15 < 16 ∧ ((bc4core lowThenHigh).1.extractLsb' (16 + 3 * 15) 3).toNat = 7 := by decide +kernel

theorem test_witness_TwoValueBlockIsLossless :
    (0#8).toNat < (255#8).toNat ∧ 0#8 ∈ ((flat 0).set 15 255#8).toList ∧
    255#8 ∈ ((flat 0).set 15 255#8).toList ∧
    ∀ v ∈ ((flat 0).set 15 255#8).toList, v = 0#8 ∨ v = 255#8 := by decide +kernel

theorem test_witness_SubsetsPartitionThePixels : 0x8000#16 ∈ tvTable.entries := by decide

theorem test_witness_PixelIndexIsItsSubsetsIndex :
    (members 0x8000#16 true)[0]? = some 15 ∧ (members 0x8000#16 false)[14]? = some 14 := by
  decide +kernel

theorem test_witness_SelectedPartitionIsTheFirstOfLeastError :
    tvTable.entries[0]? = some 0xCCCC#16 ∧ 0 < (bc7core tvTable lastPixels).part := by
  decide +kernel

theorem test_witness_Bc7BlockFields :
    tvTable.entries[(bc7core tvTable lastPixels).part]? = some 0x8000#16 ∧ 14 < 15 := by
  decide +kernel

theorem test_witness_TwoColourBlockSelectsEntryZero :
    (∀ c, ((⟨0#8, 5#8, 255#8⟩ : Colour).get c).toNat ≤ ((⟨255#8, 5#8, 255#8⟩ : Colour).get c).toNat) ∧
    ∀ p ∈ ((Vector.replicate 16 ⟨0#8, 5#8, 255#8⟩ : Block Colour).set 3 ⟨255#8, 5#8, 255#8⟩).toList,
      p = ⟨0#8, 5#8, 255#8⟩ ∨ p = ⟨255#8, 5#8, 255#8⟩ :=
  ⟨fun c => by cases c <;> decide, by decide +kernel⟩

end Sys2Proof.Tests
end

/-! Configuration (00_scope.md rules R4, R5): what the two well-formedness checks mean, and when
`configure` builds a table. -/

namespace Sys2Proof.Machine

/-- Both subsets of the partition `m` have a pixel, in the words of rule R5. -/
def BothSubsetsNonempty (m : PartitionMask) : Prop :=
  (∃ i, i < 16 ∧ m.getLsbD i = false) ∧ ∃ j, j < 16 ∧ m.getLsbD j = true

/-- The list of masks is a well-formed table with an `NPART` in range, in the words of rule R5. -/
def MasksWellFormed (masks : List PartitionMask) : Prop :=
  1 ≤ masks.length ∧ masks.length ≤ 64 ∧ ∀ m ∈ masks, BothSubsetsNonempty m

/-! ### One mask -/

theorem ne_zero_iff_exists_bit_set {w : Nat} (x : BitVec w) :
    x ≠ 0#w ↔ ∃ j, j < w ∧ x.getLsbD j = true := by
  simp [BitVec.eq_of_getLsbD_eq_iff]

theorem ne_allOnes_iff_exists_bit_clear {w : Nat} (x : BitVec w) :
    x ≠ BitVec.allOnes w ↔ ∃ i, i < w ∧ x.getLsbD i = false := by
  simp only [ne_eq, BitVec.eq_of_getLsbD_eq_iff, not_forall, exists_prop]
  exact exists_congr fun i => and_congr_right fun hi => by simp [hi]

theorem maskWellFormed_iff (m : PartitionMask) :
    maskWellFormed m = true ↔ BothSubsetsNonempty m := by
  rw [BothSubsetsNonempty, ← ne_allOnes_iff_exists_bit_clear, ← ne_zero_iff_exists_bit_set]
  simp [maskWellFormed, and_comm]

/-! ### A table -/

theorem not_masksWellFormed_nil : ¬ MasksWellFormed [] :=
  fun ⟨hpos, _, _⟩ => absurd hpos (by decide)

theorem tableWellFormed_iff (first : PartitionMask) (rest : List PartitionMask) :
    tableWellFormed first rest = true ↔ MasksWellFormed (first :: rest) := by
  have hlen : rest.length < 64 ↔ 1 ≤ (first :: rest).length ∧ (first :: rest).length ≤ 64 := by
    simp only [List.length_cons]; omega
  simp only [tableWellFormed, MasksWellFormed, Bool.and_eq_true, decide_eq_true_iff,
    List.all_eq_true, maskWellFormed_iff, hlen, and_assoc]

/-! ### `configure` -/

/-- A well-formed list of masks is configured to the table with those entries, in that order. -/
theorem configure_of_wellFormed {masks : List PartitionMask} (hwf : MasksWellFormed masks) :
    ∃ t, configure masks = .ok t ∧ t.entries = masks := by
  cases masks with
  | nil => exact absurd hwf not_masksWellFormed_nil
  | cons first rest =>
    have htable := (tableWellFormed_iff first rest).2 hwf
    exact ⟨⟨first, rest, htable⟩, dif_pos htable, rfl⟩

theorem configure_of_not_wellFormed {masks : List PartitionMask} (hwf : ¬ MasksWellFormed masks) :
    configure masks = .error .illFormedPartitionTable := by
  cases masks with
  | nil => rfl
  | cons first rest => exact dif_neg (mt (tableWellFormed_iff first rest).1 hwf)

/-- Settles O36: `configure` refuses the empty list outright, and decides every other by
`tableWellFormed`, which is rule R5 (`tableWellFormed_iff`). -/
theorem onlyWellFormedTablesAreConfigured : Obligations.OnlyWellFormedTablesAreConfigured :=
  fun masks =>
    have hbuilds : MasksWellFormed masks → ∃ t, configure masks = .ok t ∧ t.entries = masks :=
      configure_of_wellFormed
    have hrefuses : ¬ MasksWellFormed masks → configure masks = .error .illFormedPartitionTable :=
      configure_of_not_wellFormed
    ⟨hbuilds, hrefuses⟩

end Sys2Proof.Machine

/-! Command words (30_encoding.md Part A): a word is determined by its fields, each row of the
opcode map in terms of the fields, and which words are illegal. -/

namespace Sys2Proof

open Laws Safety

/-! ### A word and its fields (rule R45) -/

/-- A field of two parts is compared part by part. -/
theorem extractLsb'_add_eq_iff {n : Nat} (x y : BitVec n) (s low high : Nat) :
    x.extractLsb' s (high + low) = y.extractLsb' s (high + low) ↔
      x.extractLsb' (s + low) high = y.extractLsb' (s + low) high ∧
        x.extractLsb' s low = y.extractLsb' s low := by
  simp only [← BitVec.extractLsb'_append_extractLsb'_eq_extractLsb' (rfl : s + low = s + low)]
  refine ⟨fun h => ⟨?_, ?_⟩, fun ⟨hhigh, hlow⟩ => by rw [hhigh, hlow]⟩
  · simpa only [BitVec.extractLsb'_append_eq_left] using congrArg (BitVec.extractLsb' low high) h
  · simpa only [BitVec.extractLsb'_append_eq_right] using congrArg (BitVec.extractLsb' 0 low) h

theorem word_eq_iff_formatZ (w w' : Word) :
    w = w' ↔ opField w = opField w' ∧ zReserved w = zReserved w' := by
  have h := extractLsb'_add_eq_iff w w' 0 28 4
  rwa [BitVec.extractLsb'_eq_self, BitVec.extractLsb'_eq_self] at h

theorem word_eq_iff_formatP (w w' : Word) :
    w = w' ↔ opField w = opField w' ∧ pReservedHigh w = pReservedHigh w' ∧ chField w = chField w' ∧
      pReservedLow w = pReservedLow w' ∧ byte0Field w = byte0Field w' := by
  have hlow24 := extractLsb'_add_eq_iff w w' 0 8 16
  have hlow26 := (extractLsb'_add_eq_iff w w' 0 24 2).trans (and_congr_right' hlow24)
  have hlow28 := (extractLsb'_add_eq_iff w w' 0 26 2).trans (and_congr_right' hlow26)
  exact (word_eq_iff_formatZ w w').trans (and_congr_right' hlow28)

theorem word_eq_iff_formatV (w w' : Word) :
    w = w' ↔ opField w = opField w' ∧ vReserved w = vReserved w' ∧ byte2Field w = byte2Field w' ∧
      byte1Field w = byte1Field w' ∧ byte0Field w = byte0Field w' := by
  have hlow16 := extractLsb'_add_eq_iff w w' 0 8 8
  have hlow24 := (extractLsb'_add_eq_iff w w' 0 16 8).trans (and_congr_right' hlow16)
  have hlow28 := (extractLsb'_add_eq_iff w w' 0 24 4).trans (and_congr_right' hlow24)
  exact (word_eq_iff_formatZ w w').trans (and_congr_right' hlow28)

/-! ### The masks of the opcode map (rule R47), format by format

A mask is all ones on the opcode and on the reserved bits of its format, and zero on the
operands. -/

theorem matches_formatZ_iff (w : Word) (op : BitVec 4) :
    w &&& 0xFFFFFFFF#32 = encodeZ op ↔ opField w = op ∧ zReserved w = 0#28 := by
  have hmask : w &&& 0xFFFFFFFF#32 = w := BitVec.and_allOnes
  have hop : opField (encodeZ op) = op := BitVec.extractLsb'_append_eq_left
  have hz : zReserved (encodeZ op) = 0#28 := BitVec.extractLsb'_append_eq_right
  rw [hmask, word_eq_iff_formatZ, hop, hz]

theorem matches_formatP_iff (w : Word) :
    w &&& 0xFCFFFF00#32 = 0x20000000#32 ↔
      opField w = 0x2#4 ∧ pReservedHigh w = 0#2 ∧ pReservedLow w = 0#16 := by
  have hop : opField (w &&& 0xFCFFFF00#32) = opField w :=
    BitVec.extractLsb'_and.trans BitVec.and_allOnes
  have hhigh : pReservedHigh (w &&& 0xFCFFFF00#32) = pReservedHigh w :=
    BitVec.extractLsb'_and.trans BitVec.and_allOnes
  have hch : chField (w &&& 0xFCFFFF00#32) = 0#2 := BitVec.extractLsb'_and.trans BitVec.and_zero
  have hlow : pReservedLow (w &&& 0xFCFFFF00#32) = pReservedLow w :=
    BitVec.extractLsb'_and.trans BitVec.and_allOnes
  have hv : byte0Field (w &&& 0xFCFFFF00#32) = 0#8 :=
    BitVec.extractLsb'_and.trans BitVec.and_zero
  rw [word_eq_iff_formatP, hop, hhigh, hch, hlow, hv]
  have hmatch : opField 0x20000000#32 = 0x2#4 ∧ pReservedHigh 0x20000000#32 = 0#2 ∧
      chField 0x20000000#32 = 0#2 ∧ pReservedLow 0x20000000#32 = 0#16 ∧
      byte0Field 0x20000000#32 = 0#8 := by decide
  simp [hmatch]

theorem matches_formatV_iff (w : Word) :
    w &&& 0xFF000000#32 = 0x30000000#32 ↔ opField w = 0x3#4 ∧ vReserved w = 0#4 := by
  have hop : opField (w &&& 0xFF000000#32) = opField w :=
    BitVec.extractLsb'_and.trans BitVec.and_allOnes
  have hv : vReserved (w &&& 0xFF000000#32) = vReserved w :=
    BitVec.extractLsb'_and.trans BitVec.and_allOnes
  have h2 : byte2Field (w &&& 0xFF000000#32) = 0#8 := BitVec.extractLsb'_and.trans BitVec.and_zero
  have h1 : byte1Field (w &&& 0xFF000000#32) = 0#8 := BitVec.extractLsb'_and.trans BitVec.and_zero
  have h0 : byte0Field (w &&& 0xFF000000#32) = 0#8 := BitVec.extractLsb'_and.trans BitVec.and_zero
  rw [word_eq_iff_formatV, hop, hv, h2, h1, h0]
  have hmatch : opField 0x30000000#32 = 0x3#4 ∧ vReserved 0x30000000#32 = 0#4 ∧
      byte2Field 0x30000000#32 = 0#8 ∧ byte1Field 0x30000000#32 = 0#8 ∧
      byte0Field 0x30000000#32 = 0#8 := by decide
  simp [hmatch]

/-! ### What each format decodes to -/

theorem decodeZ_eq_ok_iff (w : Word) (i j : Instr) :
    decodeZ w i = .ok j ↔ j = i ∧ zReserved w = 0#28 := by
  unfold decodeZ
  split_ifs with hz <;> simp [hz, eq_comm]

theorem decodeZ_error_iff (w : Word) (i : Instr) :
    (∃ r, decodeZ w i = .error r) ↔ zReserved w ≠ 0#28 := by
  unfold decodeZ
  split_ifs with hz <;> simp [hz]

theorem decodeP_eq_ok_iff (w : Word) (i : Instr) :
    decodeP w = .ok i ↔ i = .push (chField w) (byte0Field w) ∧
      pReservedHigh w = 0#2 ∧ pReservedLow w = 0#16 ∧ chField w ≠ 3#2 := by
  unfold decodeP
  split_ifs with hres hch
  · simp [hch]
  · simp [hres, hch, eq_comm]
  · simpa using fun _ hhigh hlow => absurd ⟨hhigh, hlow⟩ hres

theorem decodeP_error_iff (w : Word) :
    (∃ r, decodeP w = .error r) ↔
      pReservedHigh w ≠ 0#2 ∨ pReservedLow w ≠ 0#16 ∨ chField w = 3#2 := by
  unfold decodeP
  split_ifs with hres hch
  · simp [hch]
  · simp [hres, hch]
  · simpa using or_assoc.1 (.inl (Decidable.not_and_iff_or_not.1 hres))

theorem decodeV_eq_ok_iff (w : Word) (i : Instr) :
    decodeV w = .ok i ↔
      i = .pushv (byte0Field w) (byte1Field w) (byte2Field w) ∧ vReserved w = 0#4 := by
  unfold decodeV
  split_ifs with hv <;> simp [hv, eq_comm]

theorem decodeV_error_iff (w : Word) : (∃ r, decodeV w = .error r) ↔ vReserved w ≠ 0#4 := by
  unfold decodeV
  split_ifs with hv <;> simp [hv]

/-! ### Decoding -/

/-- Everything but the opcode that rule R47 asks of a word of the command: the reserved bits of its
format are zero and the operand fields hold its operands. -/
def CarriesOperands (w : Word) : Instr → Prop
  | .push ch v =>
    (ch = chField w ∧ v = byte0Field w) ∧
      pReservedHigh w = 0#2 ∧ pReservedLow w = 0#16 ∧ chField w ≠ 3#2
  | .pushv c0 c1 c2 =>
    (c0 = byte0Field w ∧ c1 = byte1Field w ∧ c2 = byte2Field w) ∧ vReserved w = 0#4
  | .nop | .clr | .enc4 | .enc5 | .enc7 | .clrf => zReserved w = 0#28

theorem decode_ok_fields {w : Word} {i : Instr} (h : decode w = .ok i) :
    opField w = opcodeOf i ∧ CarriesOperands w i := by
  unfold decode at h
  split at h
  case h_3 hop =>
    obtain ⟨rfl, hreserved⟩ := (decodeP_eq_ok_iff w i).1 h
    exact ⟨BitVec.eq_of_toNat_eq hop, ⟨rfl, rfl⟩, hreserved⟩
  case h_4 hop =>
    obtain ⟨rfl, hreserved⟩ := (decodeV_eq_ok_iff w i).1 h
    exact ⟨BitVec.eq_of_toNat_eq hop, ⟨rfl, rfl, rfl⟩, hreserved⟩
  case h_9 => cases h
  all_goals
    obtain ⟨rfl, hz⟩ := (decodeZ_eq_ok_iff w _ i).1 h
    exact ⟨BitVec.eq_of_toNat_eq ‹_›, hz⟩

theorem decode_of_fields {w : Word} {i : Instr} (hop : opField w = opcodeOf i)
    (h : CarriesOperands w i) : decode w = .ok i := by
  unfold decode
  rw [hop]
  cases i with
  | push ch v =>
    obtain ⟨⟨rfl, rfl⟩, hreserved⟩ := h
    exact (decodeP_eq_ok_iff w _).2 ⟨rfl, hreserved⟩
  | pushv c0 c1 c2 =>
    obtain ⟨⟨rfl, rfl, rfl⟩, hreserved⟩ := h
    exact (decodeV_eq_ok_iff w _).2 ⟨rfl, hreserved⟩
  | _ => exact (decodeZ_eq_ok_iff w _ _).2 ⟨rfl, h⟩

/-- A word decodes to a command when it has its opcode and carries its operands. -/
theorem decode_eq_ok_iff (w : Word) (i : Instr) :
    decode w = .ok i ↔ opField w = opcodeOf i ∧ CarriesOperands w i :=
  ⟨decode_ok_fields, fun ⟨hop, h⟩ => decode_of_fields hop h⟩

/-- The clauses of rule R49 in the decoder's names for the fields. -/
theorem illegalByRule_iff (w : Word) :
    IllegalByRule w ↔
      ((opField w).toNat = 0x6 ∨ 0x9 ≤ (opField w).toNat) ∨
      ((opField w).toNat ∈ [0x0, 0x1, 0x4, 0x5, 0x7, 0x8] ∧ zReserved w ≠ 0#28) ∨
      ((opField w).toNat = 0x2 ∧
        (pReservedHigh w ≠ 0#2 ∨ pReservedLow w ≠ 0#16 ∨ chField w = 3#2)) ∨
      ((opField w).toNat = 0x3 ∧ vReserved w ≠ 0#4) := Iff.rfl

/-- The decoder refuses exactly the words of rule R49. -/
theorem decode_error_iff (w : Word) : (∃ r, decode w = .error r) ↔ IllegalByRule w := by
  rw [illegalByRule_iff]
  unfold decode
  split
  case h_3 hop => simp [hop, decodeP_error_iff]
  case h_4 hop => simp [hop, decodeV_error_iff]
  case h_9 =>
    have hreserved : (opField w).toNat = 0x6 ∨ 0x9 ≤ (opField w).toNat := by
      simp only [imp_false] at *
      omega
    simp [hreserved]
  all_goals
    rename_i hop
    simp [hop, decodeZ_error_iff]

/-! ### The opcode map -/

/-- A command without operands is decoded from the one word with its opcode and zeros. -/
theorem decode_eq_ok_iff_matches_formatZ (w : Word) {i : Instr}
    (hformat : CarriesOperands w i ↔ zReserved w = 0#28) :
    decode w = .ok i ↔ w &&& 0xFFFFFFFF#32 = encodeZ (opcodeOf i) := by
  rw [decode_eq_ok_iff, matches_formatZ_iff, hformat]

theorem decode_eq_push_iff (w : Word) (ch : BitVec 2) (v : Byte) :
    decode w = .ok (.push ch v) ↔
      w &&& 0xFCFFFF00#32 = 0x20000000#32 ∧ chField w ≠ 3#2 ∧
        ch = chField w ∧ v = byte0Field w := by
  rw [decode_eq_ok_iff, matches_formatP_iff]
  simp only [CarriesOperands, opcodeOf]
  tauto

theorem decode_eq_pushv_iff (w : Word) (c0 c1 c2 : Byte) :
    decode w = .ok (.pushv c0 c1 c2) ↔
      w &&& 0xFF000000#32 = 0x30000000#32 ∧
        c0 = byte0Field w ∧ c1 = byte1Field w ∧ c2 = byte2Field w := by
  rw [decode_eq_ok_iff, matches_formatV_iff]
  simp only [CarriesOperands, opcodeOf]
  tauto

theorem decode_error_of_reservedOpcode {w : Word}
    (h : opField w = 0x6#4 ∨ 0x9 ≤ (opField w).toNat) : ∃ r, decode w = .error r :=
  (decode_error_iff w).2 (.inl (h.imp_left (congrArg BitVec.toNat)))

/-- Settles O3, row by row: each match and mask says what the word's fields are, and so does the
decoder (`decode_eq_ok_iff`). -/
theorem opcodeMapByMatchAndMask : Obligations.OpcodeMapByMatchAndMask :=
  fun w =>
    ⟨decode_eq_ok_iff_matches_formatZ w Iff.rfl, decode_eq_ok_iff_matches_formatZ w Iff.rfl,
      decode_eq_push_iff w, decode_eq_pushv_iff w,
      decode_eq_ok_iff_matches_formatZ w Iff.rfl, decode_eq_ok_iff_matches_formatZ w Iff.rfl,
      decode_eq_ok_iff_matches_formatZ w Iff.rfl, decode_eq_ok_iff_matches_formatZ w Iff.rfl,
      decode_error_of_reservedOpcode⟩

end Sys2Proof

/-! Accepting an illegal word (60_exceptions.md rule R142). -/

namespace Sys2Proof.Machine

open Safety

theorem step_of_undecodable {s : State} {w : Word} {rest : List HostEvent} {r : Illegal}
    (hhost : s.host = .command w :: rest) (hdecode : decode w = .error r) :
    step s = .next (takeException .illegal { s with host := rest }) := by
  simp [step, takeEvent, hhost, acceptEvent, acceptCommand, hdecode]

theorem step_of_illegalByRule {s : State} {w : Word} {rest : List HostEvent}
    (hhost : s.host = .command w :: rest) (hillegal : IllegalByRule w) :
    step s = .next { s with host := rest, flags := s.flags ||| 2#2 } := by
  obtain ⟨r, hdecode⟩ := (decode_error_iff w).2 hillegal
  rw [step_of_undecodable hhost hdecode, takeException_illegal_eq]

/-- Settles O4: the decoder refuses the words of rule R49 (`decode_error_iff`), and the step takes
the exception `ILLEGAL` on a refused word. -/
theorem illegalWordSetsOnlyFlagCmd : Obligations.IllegalWordSetsOnlyFlagCmd :=
  ⟨decode_error_iff, fun _ _ _ => step_of_illegalByRule⟩

end Sys2Proof.Machine

/-! The layouts of the blocks (30_encoding.md Part B): what stands in each bit field, and that it is
the endpoints and indices of the encoders. -/

namespace Sys2Proof.Machine

open Safety

/-! ### Fields of fields and of packed indices -/

/-- A field of a field. -/
theorem extractLsb'_extractLsb'_add {n start len s k : Nat} (x : BitVec n) (h : s + k ≤ len) :
    (x.extractLsb' start len).extractLsb' s k = x.extractLsb' (start + s) k := by
  ext i hi
  have hlt : s + i < len := by omega
  simp [hlt, Nat.add_assoc]

/-- The field of item `k` in a stream of packed indices. -/
theorem ofNat_packIndices_field {w size k j : Nat} {idx : List Nat} (h : ∀ i ∈ idx, i < 2 ^ w)
    (hk : idx[k]? = some j) (hsize : w * k + w ≤ size) :
    ((BitVec.ofNat size (packIndices w idx)).extractLsb' (w * k) w).toNat = j := by
  have hmod : packIndices w idx % 2 ^ size / 2 ^ (w * k) % 2 ^ w =
      packIndices w idx / 2 ^ (w * k) % 2 ^ w := by
    obtain ⟨d, rfl⟩ := Nat.exists_eq_add_of_le hsize
    rw [Nat.pow_add, Nat.pow_add, Nat.mul_assoc, Nat.mod_mul_right_div_self,
      Nat.mod_mul_right_mod]
  rw [BitVec.extractLsb'_toNat, BitVec.toNat_ofNat, Nat.shiftRight_eq_div_pow, hmod,
    packIndices_field w idx h k j hk]

/-! ### Indices of the mapper -/

theorem nearest_index_lt {α : Type} (dist : α → Nat) (P : Palette α) :
    (nearest dist P).index < (paletteEntries P).length :=
  firstLeast_index_lt dist P.first P.others

theorem mapWith_index_lt {σ α : Type} {dist : σ → α → Nat} {V : List σ} {P : Palette α} {j : Nat}
    (hj : j ∈ (mapWith dist V P).1) : j < (paletteEntries P).length := by
  obtain ⟨v, -, rfl⟩ := List.mem_map.1 hj
  exact nearest_index_lt (dist v) P

@[simp] theorem expand3_length (A B : Colour) : (paletteEntries (expand3 A B)).length = 4 := rfl

/-! ### The BC4 block (rule R53) -/

theorem packBc4_endpointA (a b : Byte) (idx : List Nat) :
    (packBc4 a b idx).extractLsb' 0 8 = a :=
  BitVec.extractLsb'_append_eq_right

theorem packBc4_endpointB (a b : Byte) (idx : List Nat) :
    (packBc4 a b idx).extractLsb' 8 8 = b :=
  (BitVec.extractLsb'_append_eq_of_le (by decide)).trans BitVec.extractLsb'_append_eq_right

theorem packBc4_index (a b : Byte) {idx : List Nat} (h : ∀ j ∈ idx, j < 8) {i j : Nat}
    (hi : i < 16) (hj : idx[i]? = some j) :
    ((packBc4 a b idx).extractLsb' (16 + 3 * i) 3).toNat = j := by
  have hfield : (packBc4 a b idx).extractLsb' (16 + 3 * i) 3 =
      (idx48 idx).extractLsb' (3 * i) 3 := by
    unfold packBc4
    iterate 2 rw [BitVec.extractLsb'_append_eq_of_le (by omega)]
    congr 1
    omega
  rw [hfield]
  exact ofNat_packIndices_field h hj (by omega)

/-! ### `BC4CORE` (rules R100, R101) -/

/-- The palette against which `BC4CORE` maps a block. -/
def bc4Palette (V : Block Byte) : Palette Byte :=
  expand1 (est1 V.toList).1 (est1 V.toList).2 (bc4Levels (est1 V.toList).1 (est1 V.toList).2)

theorem bc4core_block (V : Block Byte) :
    (bc4core V).1 =
      packBc4 (est1 V.toList).1 (est1 V.toList).2 (map1 V.toList (bc4Palette V)).1 := rfl

theorem bc4core_error (V : Block Byte) : (bc4core V).2 = (map1 V.toList (bc4Palette V)).2 := rfl

/-- Both level choices give a palette of eight entries (rule R78). -/
theorem bc4Palette_length (V : Block Byte) : (paletteEntries (bc4Palette V)).length = 8 := by
  unfold bc4Palette bc4Levels
  split_ifs <;> simp

theorem bc4_index_lt {V : Block Byte} {j : Nat} (hj : j ∈ (map1 V.toList (bc4Palette V)).1) :
    j < 8 := by
  simpa [bc4Palette_length] using mapWith_index_lt hj

theorem bc4_index_exists (V : Block Byte) {i : Nat} (hi : i < 16) :
    ∃ j, (map1 V.toList (bc4Palette V)).1[i]? = some j :=
  ⟨_, List.getElem?_eq_getElem (by simpa [map1] using hi)⟩

/-- Settles O47: the block is the endpoints below the packed indices, and an index of a palette of
eight entries fits its three bits. -/
theorem bc4BlockHoldsEndpointsAndIndices : Obligations.Bc4BlockHoldsEndpointsAndIndices := by
  intro V
  refine ⟨packBc4_endpointA _ _ _, packBc4_endpointB _ _ _, bc4core_error V, fun i hi => ?_⟩
  obtain ⟨j, hj⟩ := bc4_index_exists V hi
  have hlt : ∀ k ∈ (map1 V.toList (bc4Palette V)).1, k < 8 := fun _ => bc4_index_lt
  refine ⟨j, hj, hlt j (List.mem_of_getElem? hj), ?_⟩
  rw [bc4core_block]
  exact packBc4_index _ _ hlt hi hj

/-! ### The BC7 block (rules R55, R56) -/

theorem q7_toNat (x : Byte) : (q7 x).toNat = x.toNat / 2 := by
  have := x.isLt
  simp only [q7, BitVec.extractLsb'_toNat, Nat.shiftRight_eq_div_pow]
  omega

theorem packBc7_mode (part : BitVec 6) (e0 e1 e2 e3 : Colour) (idx : List Nat) :
    (packBc7 part e0 e1 e2 e3 idx).extractLsb' 0 4 = 8#4 :=
  BitVec.extractLsb'_append_eq_right

theorem packBc7_partid (part : BitVec 6) (e0 e1 e2 e3 : Colour) (idx : List Nat) :
    (packBc7 part e0 e1 e2 e3 idx).extractLsb' 4 6 = part :=
  (BitVec.extractLsb'_append_eq_of_le (by decide)).trans BitVec.extractLsb'_append_eq_right

theorem packBc7_pbits (part : BitVec 6) (e0 e1 e2 e3 : Colour) (idx : List Nat) :
    (packBc7 part e0 e1 e2 e3 idx).extractLsb' 94 4 = 0#4 := by
  unfold packBc7
  iterate 5 rw [BitVec.extractLsb'_append_eq_of_le (by decide)]
  exact BitVec.extractLsb'_append_eq_right

/-- The field of a colour stands at bit 10, 38 or 66. -/
theorem packBc7_colourField (part : BitVec 6) (e0 e1 e2 e3 : Colour) (idx : List Nat)
    (c : Channel) :
    (packBc7 part e0 e1 e2 e3 idx).extractLsb' (10 + 28 * (channelNumber c).toNat) 28 =
      colourField c e0 e1 e2 e3 := by
  unfold packBc7
  cases c with
  | c0 =>
    iterate 2 rw [BitVec.extractLsb'_append_eq_of_le (by decide)]
    exact BitVec.extractLsb'_append_eq_right
  | c1 =>
    iterate 3 rw [BitVec.extractLsb'_append_eq_of_le (by decide)]
    exact BitVec.extractLsb'_append_eq_right
  | c2 =>
    iterate 4 rw [BitVec.extractLsb'_append_eq_of_le (by decide)]
    exact BitVec.extractLsb'_append_eq_right

theorem colourField_endpoints (c : Channel) (e0 e1 e2 e3 : Colour) :
    (colourField c e0 e1 e2 e3).extractLsb' 0 7 = q7 (e0.get c) ∧
    (colourField c e0 e1 e2 e3).extractLsb' 7 7 = q7 (e1.get c) ∧
    (colourField c e0 e1 e2 e3).extractLsb' 14 7 = q7 (e2.get c) ∧
    (colourField c e0 e1 e2 e3).extractLsb' 21 7 = q7 (e3.get c) := by
  unfold colourField
  refine ⟨?_, ?_, ?_, ?_⟩
  · exact BitVec.extractLsb'_append_eq_right
  · rw [BitVec.extractLsb'_append_eq_of_le (by decide)]
    exact BitVec.extractLsb'_append_eq_right
  · iterate 2 rw [BitVec.extractLsb'_append_eq_of_le (by decide)]
    exact BitVec.extractLsb'_append_eq_right
  · iterate 2 rw [BitVec.extractLsb'_append_eq_of_le (by decide)]
    exact BitVec.extractLsb'_append_eq_left

/-- The four endpoint fields of a channel. -/
theorem packBc7_endpoints (part : BitVec 6) (e0 e1 e2 e3 : Colour) (idx : List Nat) (c : Channel) :
    let blk := packBc7 part e0 e1 e2 e3 idx
    let base := 10 + 28 * (channelNumber c).toNat
    (blk.extractLsb' base 7).toNat = (e0.get c).toNat / 2 ∧
    (blk.extractLsb' (base + 7) 7).toNat = (e1.get c).toNat / 2 ∧
    (blk.extractLsb' (base + 14) 7).toNat = (e2.get c).toNat / 2 ∧
    (blk.extractLsb' (base + 21) 7).toNat = (e3.get c).toNat / 2 := by
  intro blk base
  have hsub : ∀ s, s + 7 ≤ 28 →
      blk.extractLsb' (base + s) 7 = (colourField c e0 e1 e2 e3).extractLsb' s 7 := fun s hs => by
    rw [← packBc7_colourField part e0 e1 e2 e3 idx c, extractLsb'_extractLsb'_add _ hs]
  obtain ⟨h0, h1, h2, h3⟩ := colourField_endpoints c e0 e1 e2 e3
  have hbase : blk.extractLsb' base 7 = q7 (e0.get c) := (hsub 0 (by decide)).trans h0
  rw [hbase, hsub 7 (by decide), hsub 14 (by decide), hsub 21 (by decide), h1, h2, h3]
  exact ⟨q7_toNat _, q7_toNat _, q7_toNat _, q7_toNat _⟩

theorem packBc7_index (part : BitVec 6) (e0 e1 e2 e3 : Colour) {idx : List Nat}
    (h : ∀ j ∈ idx, j < 4) {i j : Nat} (hi : i < 15) (hj : idx[i]? = some j) :
    ((packBc7 part e0 e1 e2 e3 idx).extractLsb' (98 + 2 * i) 2).toNat = j := by
  have hfield : (packBc7 part e0 e1 e2 e3 idx).extractLsb' (98 + 2 * i) 2 =
      (idx32 idx).extractLsb' (2 * i) 2 := by
    unfold packBc7
    iterate 6 rw [BitVec.extractLsb'_append_eq_of_le (by omega)]
    rw [idx30, BitVec.extractLsb'_extractLsb'_of_le (by omega)]
    congr 1
    omega
  rw [hfield]
  exact ofNat_packIndices_field h hj (by omega)

/-! ### `BC7CORE` (rules R110 to R115) -/

/-- Each channel of `EST3` is `EST1` of that channel (rule R73). -/
theorem est3_get (P : List Colour) (c : Channel) :
    ((est3 P).1.get c, (est3 P).2.get c) = est1 (lane c P) := by
  cases c <;> rfl

theorem npart_le (t : PartitionTable) : t.npart ≤ 64 := by
  obtain ⟨-, hle, -⟩ := (tableWellFormed_iff t.first t.rest).1 t.wf
  exact hle

/-- The partition selected is the entry at the number returned. -/
theorem entries_bc7core_part (t : PartitionTable) (V : Block Colour) :
    t.entries[(bc7core t V).part]? = some (selectPartition t V).item :=
  (firstLeast_spec (candidateError V) t.first t.rest).1

theorem bc7core_part_lt (t : PartitionTable) (V : Block Colour) : (bc7core t V).part < 64 :=
  have hlt : (bc7core t V).part < t.npart :=
    (List.getElem?_eq_some_iff.1 (entries_bc7core_part t V)).1
  Nat.lt_of_lt_of_le hlt (npart_le t)

/-- The block returned is that of the entry at the number returned. -/
theorem bc7core_block {t : PartitionTable} {V : Block Colour} {m : PartitionMask}
    (hm : t.entries[(bc7core t V).part]? = some m) :
    (bc7core t V).blk = bc7Block (bc7core t V).part m V := by
  obtain rfl : (selectPartition t V).item = m :=
    Option.some_inj.1 ((entries_bc7core_part t V).symm.trans hm)
  rfl

theorem candidateIndices_lt {V : Block Colour} {m : PartitionMask} {j : Nat}
    (hj : j ∈ candidateIndices V m) : j < 4 := by
  obtain ⟨i, -, rfl⟩ := List.mem_map.1 hj
  split
  · exact nearest_index_lt (sqDist V[i]) (subsetPalette m true V)
  · exact nearest_index_lt (sqDist V[i]) (subsetPalette m false V)

theorem candidateIndices_exists (V : Block Colour) (m : PartitionMask) {i : Nat} (hi : i < 16) :
    ∃ j, (candidateIndices V m)[i]? = some j :=
  ⟨_, List.getElem?_eq_getElem (by simpa using hi)⟩

theorem subsetEndpoints_get (m : PartitionMask) (s : Bool) (V : Block Colour) (c : Channel) :
    ((subsetEndpoints m s V).1.get c, (subsetEndpoints m s V).2.get c) =
      est1 (((members m s).map fun i => V[i]).map fun p => p.get c) :=
  est3_get (memberPixels m s V) c

theorem bc7Block_index (p : Nat) (m : PartitionMask) (V : Block Colour) {i : Nat} (hi : i < 15) :
    ∃ j, (candidateIndices V m)[i]? = some j ∧ j < 4 ∧
      ((bc7Block p m V).extractLsb' (98 + 2 * i) 2).toNat = j := by
  obtain ⟨j, hj⟩ := candidateIndices_exists V m (by omega : i < 16)
  have hlt : ∀ k ∈ candidateIndices V m, k < 4 := fun _ => candidateIndices_lt
  exact ⟨j, hj, hlt j (List.mem_of_getElem? hj), packBc7_index _ _ _ _ _ hlt hi hj⟩

theorem bc7Block_partid {p : Nat} (hp : p < 64) (m : PartitionMask) (V : Block Colour) :
    ((bc7Block p m V).extractLsb' 4 6).toNat = p := by
  have hfield : (bc7Block p m V).extractLsb' 4 6 = BitVec.ofNat 6 p := packBc7_partid _ _ _ _ _ _
  rw [hfield, BitVec.toNat_ofNat, Nat.mod_eq_of_lt hp]

/-- Settles O52: the block is that of the selected entry of the table (`bc7core_block`), and its
layout holds the endpoints of that entry's two subsets. -/
theorem bc7BlockFields : Obligations.Bc7BlockFields := by
  intro t V m hm
  rw [bc7core_block hm]
  exact ⟨(subsetEndpoints m false V).1, (subsetEndpoints m false V).2,
    (subsetEndpoints m true V).1, (subsetEndpoints m true V).2,
    subsetEndpoints_get m false V, subsetEndpoints_get m true V,
    packBc7_mode _ _ _ _ _ _, bc7Block_partid (bc7core_part_lt t V) m V,
    packBc7_endpoints _ _ _ _ _ _, packBc7_pbits _ _ _ _ _ _, fun _ => bc7Block_index _ m V⟩

end Sys2Proof.Machine

/-! The endpoint estimator (40_estimator.md): the exact line of rule R68 in the integers of rule R69,
its rounding and clamping, the one-value case and the colour estimator. -/

namespace Sys2Proof.Machine

open Safety

/-! ### The sums of rule R68 -/

theorem sum_range_cast (n : ℕ) : ∑ k ∈ Finset.range n, (k : ℚ) = n * (n - 1) / 2 := by
  induction n with
  | zero => simp
  | succ n ih => rw [Finset.sum_range_succ, ih]; push_cast; ring

theorem sum_range_cast_sq (n : ℕ) :
    ∑ k ∈ Finset.range n, (k : ℚ) ^ 2 = n * (n - 1) * (2 * n - 1) / 6 := by
  induction n with
  | zero => simp
  | succ n ih => rw [Finset.sum_range_succ, ih]; push_cast; ring

theorem sum_range_getD (u : List ℕ) : ∑ k ∈ Finset.range u.length, u.getD k 0 = u.sum := by
  induction u with
  | nil => rfl
  | cons y u ih => simp [Finset.sum_range_succ', ← ih, add_comm]

theorem sum_range_mul_getD (u : List ℕ) (j : ℕ) :
    ∑ k ∈ Finset.range u.length, (j + k) * u.getD k 0 = rankSum j u := by
  induction u generalizing j with
  | nil => rfl
  | cons y u ih =>
    simp only [List.length_cons, Finset.sum_range_succ', List.getD_cons_succ, List.getD_cons_zero,
      rankSum, ← ih, add_zero]
    simp only [add_comm, add_left_comm]

/-! ### The line in integers (rule R69) -/

theorem fitQ_pos {u : List ℕ} (h : 2 ≤ u.length) : 0 < fitQ u := by
  unfold fitQ; positivity

/-- The two quotients of rule R69 are the line of rule R68 at its ends. The denominator `D` of the
line is `n ^ 2 * (n ^ 2 - 1) / 12`, which two points make nonzero. -/
theorem lineEnds_eq_fit {u : List ℕ} (h : 2 ≤ u.length) :
    lineEnds u = ((fitN0 u : ℚ) / fitQ u, (fitN1 u : ℚ) / fitQ u) := by
  have hSy : ∑ k ∈ Finset.range u.length, (u.getD k 0 : ℚ) = u.sum := by
    exact_mod_cast sum_range_getD u
  have hSxy : ∑ k ∈ Finset.range u.length, (k : ℚ) * (u.getD k 0 : ℚ) = rankSum 0 u := by
    rw [← sum_range_mul_getD u 0]; push_cast; simp
  have hlen : (2 : ℚ) ≤ u.length := by exact_mod_cast h
  simp only [lineEnds, sum_range_cast, sum_range_cast_sq, hSy, hSxy, fitN0, fitN1, fitQ]
  generalize u.sum = Sy, rankSum 0 u = Sxy
  push_cast
  generalize (u.length : ℚ) = n at hlen ⊢
  have hD : n * (n * (n - 1) * (2 * n - 1) / 6) - (n * (n - 1) / 2) ^ 2 =
      n * n * (n - 1) * (n + 1) / 12 := by ring
  have hn : n ≠ 0 := by linarith
  have hpred : n - 1 ≠ 0 := by linarith
  have hsucc : n + 1 ≠ 0 := by linarith
  rw [hD, Prod.mk.injEq]
  constructor <;> field_simp <;> ring

/-! ### Rounding and clamping (rules R70, R71) -/

theorem floor_add_half_eq_roundDiv (num : ℤ) {den : ℤ} (h : 0 < den) :
    ⌊(num : ℚ) / den + 1 / 2⌋ = roundDiv num den := by
  obtain ⟨hlo, hhi⟩ := roundDiv_bounds num h
  have hden : (0 : ℚ) < 2 * den := by exact_mod_cast (by omega : 0 < 2 * den)
  have hsum : (num : ℚ) / den + 1 / 2 = (2 * num + den) / (2 * den) := by field_simp
  rw [hsum, Int.floor_eq_iff, le_div_iff₀ hden, div_lt_iff₀ hden]
  constructor
  · exact_mod_cast (mul_comm _ _).trans_le hlo
  · exact_mod_cast hhi.trans_eq (by ring)

/-- The bounds are integers, so clamping commutes with rounding. -/
theorem floor_clamp_add_half (x : ℚ) :
    ⌊max 0 (min 255 x) + 1 / 2⌋ = max 0 (min 255 ⌊x + 1 / 2⌋) := by
  have hmono : Monotone fun y : ℚ => ⌊y + 1 / 2⌋ := fun _ _ h => Int.floor_mono (by gcongr)
  have h0 : ⌊(0 : ℚ) + 1 / 2⌋ = 0 := by norm_num
  have h255 : ⌊(255 : ℚ) + 1 / 2⌋ = 255 := by norm_num
  calc ⌊max 0 (min 255 x) + 1 / 2⌋
      = max ⌊(0 : ℚ) + 1 / 2⌋ ⌊min 255 x + 1 / 2⌋ := hmono.map_max
    _ = max ⌊(0 : ℚ) + 1 / 2⌋ (min ⌊(255 : ℚ) + 1 / 2⌋ ⌊x + 1 / 2⌋) := by rw [hmono.map_min]
    _ = max 0 (min 255 ⌊x + 1 / 2⌋) := by rw [h0, h255]

theorem roundToByte_eq_floor (num : ℤ) {den : ℤ} (h : 0 < den) :
    ((roundToByte num den).toNat : ℤ) = max 0 (min 255 ⌊(num : ℚ) / den + 1 / 2⌋) := by
  rw [roundToByte_toNat, floor_add_half_eq_roundDiv num h]

/-! ### `EST1` and `EST3` -/

theorem fitDistinct_of_two_le {u : List ℕ} (h : 2 ≤ u.length) :
    fitDistinct u = (roundToByte (fitN0 u) (fitQ u), roundToByte (fitN1 u) (fitQ u)) := by
  match u, h with
  | _ :: _ :: _, _ => rfl

/-- Settles O37: the integer quotients are the exact line (`lineEnds_eq_fit`), and rounding commutes
with clamping (`floor_clamp_add_half`). -/
theorem estimatorIsTheRoundedLeastSquaresLine :
    Obligations.EstimatorIsTheRoundedLeastSquaresLine := by
  intro V u hasc hmem hlen
  have hfirst := roundToByte_eq_floor (fitN0 u) (fitQ_pos hlen)
  have hlast := roundToByte_eq_floor (fitN1 u) (fitQ_pos hlen)
  rw [est1_eq_fitDistinct hasc hmem, fitDistinct_of_two_le hlen, lineEnds_eq_fit hlen,
    floor_clamp_add_half, floor_clamp_add_half]
  exact ⟨hfirst, hlast, hfirst, hlast⟩

/-- Settles O38: the distinct values are the one-element list of `v`. -/
theorem estimatorOfOneValue : Obligations.EstimatorOfOneValue := by
  intro V v hne hall
  have hV : ∀ w, w ∈ V ↔ w = v := fun w =>
    ⟨hall w, fun hw => by
      obtain ⟨x, hx⟩ := List.exists_mem_of_ne_nil V hne
      rwa [hw, ← hall x hx]⟩
  have hvalues : est1 V = fitDistinct [v.toNat] :=
    est1_eq_fitDistinct (List.pairwise_singleton _ _) fun x => by simp [hV, eq_comm]
  simp [hvalues, fitDistinct]

/-- Settles O56: a lane of the pixels is the list of that channel's values. -/
theorem colourEstimatorFitsEachChannel : Obligations.ColourEstimatorFitsEachChannel :=
  fun P _ c => est3_get P c

end Sys2Proof.Machine

/-! The palette expander and the index mapper (41_palette_index.md): the palettes entry by entry,
the order of their steps, and what the scan makes of the indices and of the summed error. -/

namespace Sys2Proof.Machine

/-! ### The palettes entry by entry (rules R77, R78, R80) -/

/-- The endpoints, the steps between them, the anchors. -/
theorem expand1_entries (a b : Byte) (L : Levels) :
    paletteEntries (expand1 a b L) =
      a :: b :: ((List.range (levelCount L - 2)).map fun j => paletteStep a b L (j + 1)) ++
        anchors L := by
  simp [paletteEntries, expand1]

theorem expand1_four_entries (a b : Byte) :
    paletteEntries (expand1 a b .four) =
      [a, b, paletteStep a b .four 1, paletteStep a b .four 2] :=
  expand1_entries a b .four

theorem expand1_six_entries (a b : Byte) :
    paletteEntries (expand1 a b .six) =
      [a, b, paletteStep a b .six 1, paletteStep a b .six 2, paletteStep a b .six 3,
        paletteStep a b .six 4, 0#8, 255#8] :=
  expand1_entries a b .six

theorem expand1_eight_entries (a b : Byte) :
    paletteEntries (expand1 a b .eight) =
      [a, b, paletteStep a b .eight 1, paletteStep a b .eight 2, paletteStep a b .eight 3,
        paletteStep a b .eight 4, paletteStep a b .eight 5, paletteStep a b .eight 6] :=
  expand1_entries a b .eight

theorem zipPalettes_entries (P0 P1 P2 : Palette Byte) :
    paletteEntries (zipPalettes P0 P1 P2) =
      List.zipWith (fun x yz => ⟨x, yz.1, yz.2⟩) (paletteEntries P0)
        ((paletteEntries P1).zip (paletteEntries P2)) := rfl

theorem expand3_entries (A B : Colour) :
    paletteEntries (expand3 A B) =
      [A, B,
        ⟨paletteStep A.c0 B.c0 .four 1, paletteStep A.c1 B.c1 .four 1,
          paletteStep A.c2 B.c2 .four 1⟩,
        ⟨paletteStep A.c0 B.c0 .four 2, paletteStep A.c1 B.c1 .four 2,
          paletteStep A.c2 B.c2 .four 2⟩] := by
  simp [expand3, zipPalettes_entries, expand1_four_entries]

/-- Settles O44: `EXPAND3` zips the three 4-level palettes, so each channel of its entries is the
palette of that channel. -/
theorem colourPaletteIsThreeScalarPalettes : Obligations.ColourPaletteIsThreeScalarPalettes := by
  intro A B
  refine ⟨expand3_length A B, fun c => ?_, ?_, ?_⟩
  · rw [expand3_entries, expand1_four_entries]
    cases c <;> rfl
  · rw [expand3_entries]; rfl
  · rw [expand3_entries]; rfl

/-! ### The order of the steps (rules R75, R77, R79) -/

/-- Swapping the endpoints reverses the steps (rule R79). -/
theorem paletteStep_swap (a b : Byte) (L : Levels) {j : Nat} (hj : j < levelCount L) :
    paletteStep b a L (levelCount L - 1 - j) = paletteStep a b L j := by
  apply BitVec.eq_of_toNat_eq
  have hback : levelCount L - 1 - (levelCount L - 1 - j) = j := by omega
  rw [paletteStep_toNat _ _ _ _ (by omega), paletteStep_toNat _ _ _ _ hj, hback,
    Nat.add_comm (j * b.toNat)]

/-- A later step gives more of its weight to `b`. -/
theorem paletteStep_le_of_le {a b : Byte} (hab : a.toNat ≤ b.toNat) (L : Levels) {i j : Nat}
    (hij : i ≤ j) (hj : j < levelCount L) :
    (paletteStep a b L i).toNat ≤ (paletteStep a b L j).toNat := by
  have hweights : (levelCount L - 1 - i) * a.toNat + i * b.toNat ≤
      (levelCount L - 1 - j) * a.toNat + j * b.toNat := by
    obtain ⟨d, rfl⟩ := Nat.exists_eq_add_of_le hij
    have hsplit : levelCount L - 1 - i = levelCount L - 1 - (i + d) + d := by omega
    have hmoved : d * a.toNat ≤ d * b.toNat := Nat.mul_le_mul_left d hab
    rw [hsplit, Nat.add_mul, Nat.add_mul]
    omega
  rw [paletteStep_toNat _ _ _ _ (by omega), paletteStep_toNat _ _ _ _ hj]
  exact Nat.div_le_div_right (by omega)

theorem paletteStep_ge_of_ge {a b : Byte} (hba : b.toNat ≤ a.toNat) (L : Levels) {i j : Nat}
    (hij : i ≤ j) (hj : j < levelCount L) :
    (paletteStep a b L j).toNat ≤ (paletteStep a b L i).toNat := by
  rw [← paletteStep_swap a b L hj, ← paletteStep_swap a b L (by omega : i < levelCount L)]
  exact paletteStep_le_of_le hba L (by omega) (by omega)

/-- The values of the steps `t_0, ..., t_(L-1)` in step order. -/
def stepValues (a b : Byte) (L : Levels) : List Nat :=
  (List.range (levelCount L)).map fun j => (paletteStep a b L j).toNat

/-- The step numbers: 0, those between, and the last. -/
theorem range_levelCount (L : Levels) :
    List.range (levelCount L) =
      0 :: (List.range (levelCount L - 2)).map (· + 1) ++ [levelCount L - 1] := by
  cases L <;> rfl

/-- Entry 0, then the entries from 2 on, then entry 1 are the steps in order: the palette moves the
last step to position 1 (rule R77). -/
theorem stepValues_eq_entries (a b : Byte) (L : Levels) :
    ((paletteEntries (expand1 a b L)).map BitVec.toNat).take 1 ++
        (((paletteEntries (expand1 a b L)).map BitVec.toNat).drop 2).take (levelCount L - 2) ++
        (((paletteEntries (expand1 a b L)).map BitVec.toNat).drop 1).take 1 =
      stepValues a b L := by
  simp [stepValues, range_levelCount, expand1_entries, Function.comp_def]

theorem stepValues_pairwise {R : Nat → Nat → Prop} {a b : Byte} {L : Levels}
    (h : ∀ i j, i ≤ j → j < levelCount L →
      R (paletteStep a b L i).toNat (paletteStep a b L j).toNat) :
    (stepValues a b L).Pairwise R :=
  List.pairwise_map.2 <| List.pairwise_lt_range.imp_of_mem fun _ hj hlt =>
    h _ _ hlt.le (List.mem_range.1 hj)

/-- Settles O42: the entries are the steps in palette order, each a rounded quotient
(`paletteStep_toNat`), and in step order they are monotone (`paletteStep_le_of_le`). -/
theorem paletteEntriesByLevelCount : Obligations.PaletteEntriesByLevelCount := by
  intro a b x y r steps
  have hsteps : ∀ L, steps L = stepValues a b L := stepValues_eq_entries a b
  refine ⟨?_, ?_, ?_, fun L => ?_, fun hab L => ?_, fun hba L => ?_⟩
  · simp (disch := decide) [expand1_four_entries, paletteStep_toNat, levelCount, x, y, r]
  · simp (disch := decide) [expand1_six_entries, paletteStep_toNat, levelCount, x, y, r]
  · simp (disch := decide) [expand1_eight_entries, paletteStep_toNat, levelCount, x, y, r]
  · simp [hsteps, stepValues]
  · rw [hsteps]
    exact stepValues_pairwise fun _ _ hij hj => paletteStep_le_of_le hab L hij hj
  · rw [hsteps]
    exact stepValues_pairwise fun _ _ hij hj => paletteStep_ge_of_ge hba L hij hj

/-! ### The mapper for any distance (rules R82 to R84, R86 to R88) -/

/-- The entry chosen stands at the index chosen. -/
theorem paletteEntries_nearest {α : Type} (dist : α → Nat) (P : Palette α) :
    (paletteEntries P)[(nearest dist P).index]? = some (nearest dist P).item :=
  (firstLeast_spec dist P.first P.others).1

/-- No entry is nearer than the one chosen, and every entry before it is farther. -/
theorem nearest_dist_le {α : Type} (dist : α → Nat) (P : Palette α) {k : Nat} {q : α}
    (hq : (paletteEntries P)[k]? = some q) :
    dist (nearest dist P).item ≤ dist q ∧
      (k < (nearest dist P).index → dist (nearest dist P).item < dist q) :=
  (firstLeast_spec dist P.first P.others).2 k q hq

/-- Where only equal points are at distance 0, the entry chosen is at distance 0 exactly from the
samples that are entries. -/
theorem nearest_dist_eq_zero_iff {α : Type} {dist : α → α → Nat}
    (hzero : ∀ v p, dist v p = 0 ↔ v = p) (v : α) (P : Palette α) :
    dist v (nearest (dist v) P).item = 0 ↔ v ∈ paletteEntries P := by
  constructor
  · intro h
    have hitem : v = (nearest (dist v) P).item := (hzero _ _).1 h
    have hmem := List.mem_of_getElem? (paletteEntries_nearest (dist v) P)
    rwa [← hitem] at hmem
  · intro h
    obtain ⟨k, hk⟩ := List.mem_iff_getElem?.1 h
    have hle := (nearest_dist_le (dist v) P hk).1
    rwa [(hzero v v).2 rfl, Nat.le_zero] at hle

section
variable {σ α : Type} (dist : σ → α → Nat) (V : List σ) (P : Palette α)

/-- The index of a sample is that of the first entry at the least distance. -/
theorem mapWith_index_first_nearest {i : Nat} {v : σ} (hv : V[i]? = some v) :
    ∃ j p, (mapWith dist V P).1[i]? = some j ∧ (paletteEntries P)[j]? = some p ∧
      ∀ (k : Nat) q, (paletteEntries P)[k]? = some q →
        dist v p ≤ dist v q ∧ (k < j → dist v p < dist v q) :=
  ⟨(nearest (dist v) P).index, (nearest (dist v) P).item, by simp [mapWith, hv],
    paletteEntries_nearest (dist v) P, fun _ _ hq => nearest_dist_le (dist v) P hq⟩

/-- The error is the sum of the distances to the entries at the indices. -/
theorem mapWith_error_eq_sum :
    ∃ ps : List α, (mapWith dist V P).1.map (fun j => (paletteEntries P)[j]?) = ps.map some ∧
      (mapWith dist V P).2 = (List.zipWith dist V ps).sum :=
  ⟨V.map fun v => (nearest (dist v) P).item, by simp [mapWith, paletteEntries_nearest],
    by simp [mapWith, List.zipWith_map_right, List.zipWith_self]⟩

theorem mapWith_error_le {bound : Nat} (hbound : ∀ v p, dist v p ≤ bound) :
    (mapWith dist V P).2 ≤ bound * V.length := by
  have hsum := List.sum_le_card_nsmul (V.map fun v => dist v (nearest (dist v) P).item) bound
    (by simp [hbound])
  simpa [mapWith, Nat.mul_comm] using hsum

end

theorem mapWith_error_eq_zero_iff {α : Type} {dist : α → α → Nat}
    (hzero : ∀ v p, dist v p = 0 ↔ v = p) (V : List α) (P : Palette α) :
    (mapWith dist V P).2 = 0 ↔ ∀ v ∈ V, v ∈ paletteEntries P := by
  simp [mapWith, List.sum_eq_zero_iff, nearest_dist_eq_zero_iff hzero]

/-- Settles O45: `MAP1` is the mapper for `absDist`, which is the distance of rule R81. -/
theorem scalarMapperChoosesTheFirstNearestEntry :
    Obligations.ScalarMapperChoosesTheFirstNearestEntry := fun V P =>
  ⟨mapWith_length absDist V P,
    fun _ _ hv => mapWith_index_first_nearest absDist V P hv,
    mapWith_error_eq_sum absDist V P,
    mapWith_error_le absDist V P absDist_le,
    mapWith_error_eq_zero_iff absDist_eq_zero V P,
    absDist_le⟩

/-! ### The squared distance (rule R85) -/

theorem absDist_sq (v p : Byte) :
    ((absDist v p ^ 2 : Nat) : Int) = ((v.toNat : Int) - p.toNat) ^ 2 := by
  rw [absDist, Nat.cast_pow, Int.natAbs_sq]

/-- The squared distance written out over the integers. -/
theorem sqDist_eq_toNat (v p : Colour) :
    sqDist v p = (((v.c0.toNat : Int) - p.c0.toNat) ^ 2 + ((v.c1.toNat : Int) - p.c1.toNat) ^ 2 +
      ((v.c2.toNat : Int) - p.c2.toNat) ^ 2).toNat := by
  simp only [← absDist_sq, ← Nat.cast_add, Int.toNat_natCast, sqDist]

/-- Settles O46: `MAP3` is the mapper for `sqDist`, which is the distance of rule R85
(`sqDist_eq_toNat`). -/
theorem colourMapperChoosesTheFirstNearestEntry :
    Obligations.ColourMapperChoosesTheFirstNearestEntry := by
  intro V P d idx
  have hd : d = sqDist := funext₂ fun v p => (sqDist_eq_toNat v p).symm
  rw [hd]
  exact ⟨mapWith_length sqDist V P,
    fun _ _ hv => mapWith_index_first_nearest sqDist V P hv,
    mapWith_error_eq_sum sqDist V P,
    mapWith_error_le sqDist V P sqDist_le,
    mapWith_error_eq_zero_iff sqDist_eq_zero V P⟩

end Sys2Proof.Machine

/-! Words of the buffer commands (42_buffer_commands.md, 30_encoding.md Part A): the only word of
opcode 0x0, the words of `PUSH` and `PUSHV` and their illegal neighbours. -/

namespace Sys2Proof

open Laws Safety

/-- The decoder gives commands only, never the term `push 3 v`. -/
theorem wellFormed_of_decode {w : Word} {i : Instr} (h : decode w = .ok i) :
    i.wellFormed = true := by
  obtain ⟨-, hfields⟩ := decode_ok_fields h
  cases i with
  | push ch v =>
    obtain ⟨⟨rfl, -⟩, -, -, hch⟩ := hfields
    simpa [Instr.wellFormed] using hch
  | _ => rfl

theorem illegalByRule_of_opcode_zero {w : Word} (hop : opField w = 0x0#4) (hw : w ≠ 0#32) :
    IllegalByRule w := by
  have hz : zReserved w ≠ 0#28 := fun hz => hw ((word_eq_iff_formatZ w 0#32).2 ⟨hop, hz⟩)
  exact (illegalByRule_iff w).2 (.inr (.inl ⟨by simp [hop], hz⟩))

/-! ### An operand placed in a word (rule R51)

An assembled word is the `or` of its operands, each shifted to the lowest bit of its field. A field of
the word is then found operand by operand: its own operand gives the value, the others give zeros. -/

theorem extractLsb'_placed_self {n k : Nat} (x : BitVec n) (h : k + n ≤ 32) :
    (x.setWidth 32 <<< k).extractLsb' k n = x := by
  ext i hi
  simp [hi, show k + i < 32 by omega]

theorem extractLsb'_placed_of_disjoint {n k s len : Nat} (x : BitVec n)
    (h : s + len ≤ k ∨ k + n ≤ s) : (x.setWidth 32 <<< k).extractLsb' s len = 0#len := by
  ext i hi
  rcases h with hbelow | habove
  · simp [show s + i < k by omega]
  · simp [BitVec.getLsbD_of_ge x _ (show n ≤ s + i - k by omega)]

/-! ### `PUSH` (rule R92) -/

theorem decode_push_word {ch : BitVec 2} (hch : ch ≠ 3#2) (v : Byte) :
    decode (0x20000000#32 ||| (ch.setWidth 32 <<< 24) ||| v.setWidth 32) = .ok (.push ch v) := by
  rw [decode_eq_ok_iff, ← BitVec.shiftLeft_zero (v.setWidth 32)]
  simp (disch := omega) [-BitVec.shiftLeft_zero, CarriesOperands, opcodeOf, opField, chField,
    byte0Field, pReservedHigh, pReservedLow, BitVec.extractLsb'_or, extractLsb'_placed_self,
    extractLsb'_placed_of_disjoint, hch]

theorem illegalByRule_of_bad_push {w : Word} (hop : opField w = 0x2#4)
    (h : chField w = 3#2 ∨ pReservedHigh w ≠ 0#2 ∨ pReservedLow w ≠ 0#16) : IllegalByRule w :=
  (illegalByRule_iff w).2 (.inr (.inr (.inl ⟨by simp [hop], or_rotate.1 h⟩)))

/-! ### `PUSHV` (rule R93) -/

theorem decode_pushv_word (c0 c1 c2 : Byte) :
    decode (0x30000000#32 ||| (c2.setWidth 32 <<< 16) ||| (c1.setWidth 32 <<< 8) |||
      c0.setWidth 32) = .ok (.pushv c0 c1 c2) := by
  rw [decode_eq_ok_iff, ← BitVec.shiftLeft_zero (c0.setWidth 32)]
  simp (disch := omega) [-BitVec.shiftLeft_zero, CarriesOperands, opcodeOf, opField, byte0Field,
    byte1Field, byte2Field, vReserved, BitVec.extractLsb'_or, extractLsb'_placed_self,
    extractLsb'_placed_of_disjoint]

theorem illegalByRule_of_bad_pushv {w : Word} (hop : opField w = 0x3#4) (h : vReserved w ≠ 0#4) :
    IllegalByRule w :=
  (illegalByRule_iff w).2 (.inr (.inr (.inr ⟨by simp [hop], h⟩)))

end Sys2Proof

/-! The buffer and housekeeping commands (42_buffer_commands.md): the step of a legal word, the
counters, the pushes and the flags. -/

namespace Sys2Proof.Machine

open Safety

/-! ### The order of checks (rule R95) -/

theorem step_of_decodable {s : State} {w : Word} {rest : List HostEvent} {i : Instr}
    (hhost : s.host = .command w :: rest) (hdecode : decode w = .ok i) :
    step s = exec i { s with host := rest } := by
  simp [step, takeEvent, hhost, acceptEvent, acceptCommand, hdecode]

/-- Settles O7: the step of a word that decodes (`step_of_decodable`) and of one that does not
(`step_of_illegalByRule`). -/
theorem stepDecodesThenRunsTheCommand : Obligations.StepDecodesThenRunsTheCommand :=
  fun _ _ _ hhost =>
    ⟨fun _ hdecode => ⟨wellFormed_of_decode hdecode, step_of_decodable hhost hdecode⟩,
      fun _ hdecode => step_of_illegalByRule hhost ((decode_error_iff _).1 ⟨_, hdecode⟩)⟩

/-! ### Encode commands and the shape check (rule R141) -/

/-- An encode command is valid exactly when its shape was good. -/
@[simp] theorem encodeCommand_ovalid (good : Bool) (r : Result) (s : State) :
    (encodeCommand good r s).ovalid = good := by
  cases good <;> rfl

@[simp] theorem encodeCommand_cnt (good : Bool) (r : Result) (s : State) :
    (encodeCommand good r s).cnt = ⟨0#5, 0#5, 0#5⟩ := by
  cases good <;> rfl

theorem exec_encode_of_not_shapeGood {i : Instr} {s : State} (hi : isEncode i = true)
    (hshape : ¬ shapeGood i s) :
    exec i s =
      .next { s with cnt := ⟨0#5, 0#5, 0#5⟩, flags := s.flags ||| 1#2, ovalid := false } := by
  obtain ⟨good, hgood, hexec⟩ := exec_encode hi s
  obtain rfl : good = false := by simpa [hshape] using hgood
  rw [hexec, encodeCommand_bad]

theorem not_shapeGood_of_count_ne {i : Instr} {c : Channel} {s : State}
    (hc : c ∈ neededChannels i) (hcount : count s c ≠ 16) : ¬ shapeGood i s :=
  fun h => hcount (h c hc)

/-! ### `NOP` (rule R90) -/

/-- Settles O11: the zero word is the only legal word of opcode 0x0. -/
theorem nopChangesNothing : Obligations.NopChangesNothing :=
  ⟨by decide, fun w hop hw => (decode_error_iff w).2 (illegalByRule_of_opcode_zero hop hw),
    exec_nop⟩

/-! ### `CLR` (rule R91) -/

theorem count_eq_zero_iff (s : State) : (∀ c, count s c = 0) ↔ s.cnt = ⟨0#5, 0#5, 0#5⟩ := by
  refine ⟨fun h => Triple.ext_get fun c => BitVec.eq_of_toNat_eq ?_, fun h c => ?_⟩
  · rw [← count, h c]
    cases c <;> rfl
  · rw [count, h]
    cases c <;> rfl

theorem clearCounters_eq_self {s : State} (h : s.cnt = ⟨0#5, 0#5, 0#5⟩) : clearCounters s = s := by
  rw [clearCounters, ← h]

theorem exec_clr_eq_self {s : State} (h : s.cnt = ⟨0#5, 0#5, 0#5⟩) : exec .clr s = .next s := by
  rw [exec_clr, clearCounters_eq_self h]

/-- An encode command and a `CLR` leave the counters cleared. -/
theorem cnt_of_exec_encode_or_clr {i : Instr} {s t : State} (hi : isEncode i = true ∨ i = .clr)
    (hexec : exec i s = .next t) : t.cnt = ⟨0#5, 0#5, 0#5⟩ := by
  rcases hi with hi | rfl
  · obtain ⟨good, -, h⟩ := exec_encode hi s
    obtain rfl := Host.Outcome.next.inj (h.symm.trans hexec)
    exact encodeCommand_cnt good _ s
  · obtain rfl := Host.Outcome.next.inj ((exec_clr s).symm.trans hexec)
    exact clearCounters_cnt s

/-- Settles O12: a `CLR` does nothing where the counters are cleared already (`exec_clr_eq_self`),
and so they are after reset, after an encode command and after a `CLR`. -/
theorem clrClearsTheCounters : Obligations.ClrClearsTheCounters :=
  ⟨by decide, exec_clr, fun s hcount => exec_clr_eq_self ((count_eq_zero_iff s).1 hcount),
    exec_clr_eq_self rfl,
    fun _ _ _ hi hexec => exec_clr_eq_self (cnt_of_exec_encode_or_clr hi hexec)⟩

/-! ### `PUSH` (rule R92) -/

theorem channelNumber_ne_three (c : Channel) : channelNumber c ≠ 3#2 := by
  cases c <;> decide

/-- Settles O13: the rules of `pushSample` give the effect; the words that push nothing are illegal
(`illegalByRule_of_bad_push`); and a channel of more than 16 samples is a bad shape. -/
theorem pushAppendsOneSample : Obligations.PushAppendsOneSample := by
  refine ⟨fun c => decode_push_word (channelNumber_ne_three c), fun c v s => ?_,
    fun s w rest hhost hop hbad => ?_, fun i c s hi hc hcount => ?_⟩
  · exact ⟨pushSample c v s, exec_push c v s, fun c' => slot_pushSample c c' v s,
      fun c' => count_pushSample c c' v s, pushSample_frame c v s⟩
  · exact step_of_illegalByRule hhost (illegalByRule_of_bad_push hop hbad)
  · exact exec_encode_of_not_shapeGood hi (not_shapeGood_of_count_ne hc (by omega))

/-! ### `PUSHV` (rule R93) -/

/-- One sample appended to each channel, the component of `p` for that channel. -/
def pushEach (p : Colour) (s : State) : State :=
  pushSample .c2 p.c2 (pushSample .c1 p.c1 (pushSample .c0 p.c0 s))

theorem exec_pushv_eq_pushEach (c0 c1 c2 : Byte) (s : State) :
    exec (.pushv c0 c1 c2) s = .next (pushEach ⟨c0, c1, c2⟩ s) := exec_pushv c0 c1 c2 s

theorem count_pushEach (p : Colour) (s : State) (c : Channel) :
    count (pushEach p s) c = min (count s c + 1) 31 := by
  cases c <;> simp [pushEach, count_pushSample]

/-- Each channel is stored to at its own counter, which the pushes to the others leave alone. -/
theorem slot_pushEach (p : Colour) (s : State) (c : Channel) (k : Fin 16) :
    slot (pushEach p s) c k = if k.val = count s c then p.get c else slot s c k := by
  cases c <;> simp [pushEach, slot_pushSample, count_pushSample]

theorem pushEach_frame (p : Colour) (s : State) :
    pushEach p s = { s with samples := (pushEach p s).samples, cnt := (pushEach p s).cnt } := rfl

/-- Settles O15: the effect is that of `pushEach`; the words that push nothing are illegal; and the
shape check of an encode command looks at the count of each channel it needs. -/
theorem pushvAppendsOneSamplePerChannel : Obligations.PushvAppendsOneSamplePerChannel := by
  refine ⟨decode_pushv_word, fun c0 c1 c2 s => ?_, fun s w rest hhost hop hbad => ?_,
    fun i s hi => ?_⟩
  · exact ⟨pushEach ⟨c0, c1, c2⟩ s, exec_pushv_eq_pushEach c0 c1 c2 s, slot_pushEach _ s,
      count_pushEach _ s, pushEach_frame _ s⟩
  · exact step_of_illegalByRule hhost (illegalByRule_of_bad_pushv hop hbad)
  · obtain ⟨good, hgood, hexec⟩ := exec_encode hi s
    exact ⟨_, hexec, by rw [encodeCommand_ovalid]; exact hgood⟩

/-! ### `CLRF` (rule R94) -/

theorem flags_eq_zero {s : State} (hshape : flagShape s = false) (hcmd : flagCmd s = false) :
    s.flags = 0#2 := by
  ext i hi
  interval_cases i
  · simpa [flagShape] using hshape
  · simpa [flagCmd] using hcmd

theorem exec_clrf_eq_self {s : State} (h : s.flags = 0#2) : exec .clrf s = .next s := by
  rw [exec_clrf, clearFlags, ← h]

/-- Settles O17: with both flags 0 there is nothing to clear (`flags_eq_zero`). -/
theorem clrfClearsTheFlags : Obligations.ClrfClearsTheFlags :=
  ⟨by decide, exec_clrf, fun _ hshape hcmd => exec_clrf_eq_self (flags_eq_zero hshape hcmd)⟩

end Sys2Proof.Machine

/-! The BC4 and BC5 encode commands (43_bc4_bc5.md): what `ENC4` and `ENC5` write or reject, and the
block of sixteen equal samples. -/

namespace Sys2Proof.Machine

open Safety

/-! ### Good shape, bad shape and cleared counters (rules R103, R104, R141) -/

theorem exec_encode_of_shapeGood {i : Instr} {s : State} (hi : isEncode i = true)
    (hshape : shapeGood i s) :
    exec i s = .next (writeResult (resultIfGood i s) (clearCounters s)) := by
  obtain ⟨good, hgood, hexec⟩ := exec_encode hi s
  obtain rfl : good = true := hgood.2 hshape
  exact hexec

theorem shapeGood_enc4_iff (s : State) : shapeGood .enc4 s ↔ count s .c0 = 16 := by
  simp [shapeGood, neededChannels]

theorem shapeGood_enc5_iff (s : State) :
    shapeGood .enc5 s ↔ count s .c0 = 16 ∧ count s .c1 = 16 := by
  simp [shapeGood, neededChannels]

/-- Cleared counters are no good shape, and clearing them again changes nothing. -/
theorem exec_encode_of_cleared {i : Instr} {s : State} (hi : isEncode i = true)
    (hcnt : s.cnt = ⟨0#5, 0#5, 0#5⟩) :
    exec i s = .next { s with flags := s.flags ||| 1#2, ovalid := false } := by
  have hneeds : .c0 ∈ neededChannels i := by
    cases i <;> simp [isEncode, neededChannels] at hi ⊢
  have hcount : count s .c0 ≠ 16 := by simp [count, hcnt]
  rw [exec_encode_of_not_shapeGood hi (not_shapeGood_of_count_ne hneeds hcount), ← hcnt]

/-! ### The sample block from its slots (rule R11) -/

theorem sampleBlock_eq_of_slots {s : State} {c : Channel} {V : Block Byte}
    (h : ∀ k : Fin 16, slot s c k = V[k]) : sampleBlock s c = V :=
  Vector.ext fun k hk => h ⟨k, hk⟩

/-! ### The block of equal samples (rules R103, R67, R82) -/

/-- A sample that equals the first entry keeps it: only a strictly smaller distance replaces it. -/
theorem nearest_index_of_dist_first_eq_zero {α : Type} {dist : α → Nat} {P : Palette α}
    (h : dist P.first = 0) : (nearest dist P).index = 0 := by
  by_contra hne
  have hfirst : (paletteEntries P)[0]? = some P.first := rfl
  have hlt := (nearest_dist_le dist P hfirst).2 (Nat.pos_of_ne_zero hne)
  omega

theorem packIndices_replicate_zero (w n : Nat) : packIndices w (List.replicate n 0) = 0 := by
  induction n with
  | zero => rfl
  | succ n ih => simp [List.replicate_succ, packIndices, ih]

theorem idx48_replicate_zero (n : Nat) : idx48 (List.replicate n 0) = 0#48 := by
  rw [idx48, packIndices_replicate_zero]

theorem est1_replicate (v : Byte) : est1 (Vector.replicate 16 v).toList = (v, v) :=
  estimatorOfOneValue _ v (by simp) (by simp)

theorem bc4Palette_replicate_first (v : Byte) :
    (bc4Palette (Vector.replicate 16 v)).first = v := by
  rw [bc4Palette, est1_replicate]
  exact paletteStep_first v v _

/-- Both endpoints are the sample, every index is 0 and the error is 0. -/
theorem bc4core_replicate (v : Byte) :
    bc4core (Vector.replicate 16 v) = (packBc4 v v (List.replicate 16 0), 0) := by
  have hfirst := bc4Palette_replicate_first v
  refine Prod.ext ?_ ?_
  · have hindex : (nearest (absDist v) (bc4Palette (Vector.replicate 16 v))).index = 0 :=
      nearest_index_of_dist_first_eq_zero ((absDist_eq_zero _ _).2 hfirst.symm)
    have hmap : (map1 (Vector.replicate 16 v).toList (bc4Palette (Vector.replicate 16 v))).1 =
        List.replicate 16 0 := by simp [map1, mapWith, hindex]
    rw [bc4core_block, est1_replicate, hmap]
  · rw [bc4core_error, map1, mapWith_error_eq_zero_iff absDist_eq_zero]
    simp [paletteEntries, hfirst]

/-! ### The bytes of a BC4 block (rules R30, R53, R57) -/

theorem extractLsb'_placeBc4 (blk : BitVec 64) {k : Nat} (hk : k < 8) :
    (placeBc4 blk).extractLsb' (8 * k) 8 = blk.extractLsb' (8 * k) 8 :=
  BitVec.extractLsb'_append_eq_of_add_le (by omega)

/-- The bytes above the endpoints are those of the index field. -/
theorem packBc4_index_byte (a b : Byte) (idx : List Nat) (k : Nat) :
    (packBc4 a b idx).extractLsb' (8 * (k + 2)) 8 = (idx48 idx).extractLsb' (8 * k) 8 := by
  unfold packBc4
  iterate 2 rw [BitVec.extractLsb'_append_eq_of_le (by omega)]
  congr 1

theorem blockBytes_of_bc4 {s : State} {a b : Byte} {idx : List Nat} (holen : s.olen = 8#5)
    (hout : s.out = placeBc4 (packBc4 a b idx)) :
    blockBytes s = a :: b :: (List.range 6).map fun k => (idx48 idx).extractLsb' (8 * k) 8 := by
  have hbyte : ∀ k < 8, outByte s k = (packBc4 a b idx).extractLsb' (8 * k) 8 := fun k hk => by
    rw [outByte, hout, extractLsb'_placeBc4 _ hk]
  have hindex : ∀ k < 6, outByte s (k + 2) = (idx48 idx).extractLsb' (8 * k) 8 := fun k hk => by
    rw [hbyte _ (by omega), packBc4_index_byte]
  have hA : outByte s 0 = a := (hbyte 0 (by decide)).trans (packBc4_endpointA a b idx)
  have hB : outByte s 1 = b := (hbyte 1 (by decide)).trans (packBc4_endpointB a b idx)
  simp [blockBytes, holen, List.range_succ, hA, hB, hindex]

/-! ### `ENC4` (rule R103) -/

theorem exec_enc4_of_good {s : State} (h : count s .c0 = 16) :
    exec .enc4 s = .next (writeResult (bc4Result (sampleBlock s .c0)) (clearCounters s)) :=
  exec_encode_of_shapeGood rfl ((shapeGood_enc4_iff s).2 h)

theorem exec_enc4_of_equal_samples {v : Byte} {s : State} (hcount : count s .c0 = 16)
    (hv : ∀ k, slot s .c0 k = v) :
    ∃ t, exec .enc4 s = .next t ∧ blockBytes t = [v, v, 0#8, 0#8, 0#8, 0#8, 0#8, 0#8] ∧
      t.err0 = 0#22 := by
  have hblock : sampleBlock s .c0 = Vector.replicate 16 v :=
    sampleBlock_eq_of_slots fun k => by simp [hv]
  have hcore := bc4core_replicate v
  refine ⟨_, exec_enc4_of_good hcount, ?_, ?_⟩
  · have hout : (bc4Result (sampleBlock s .c0)).out =
        placeBc4 (packBc4 v v (List.replicate 16 0)) := by rw [bc4Result, hblock, hcore]
    rw [blockBytes_of_bc4 rfl hout, idx48_replicate_zero]
    rfl
  · simp [bc4Result, hblock, hcore]

/-- Settles O19: `ENC4` writes the block of channel 0 or takes `SHAPE`; cleared counters, after reset
and after an encode command, are a bad shape (`exec_encode_of_cleared`); and equal samples give equal
endpoints with all indices 0 (`bc4core_replicate`). -/
theorem enc4EncodesOrRejects : Obligations.Enc4EncodesOrRejects := by
  refine ⟨by decide, fun s => ⟨exec_enc4_of_good, fun hbad => ?_⟩, exec_encode_of_cleared rfl rfl,
    fun i s t hi hexec => ?_, fun v s => exec_enc4_of_equal_samples⟩
  · exact exec_encode_of_not_shapeGood rfl (hbad ∘ (shapeGood_enc4_iff s).1)
  · exact exec_encode_of_cleared rfl (cnt_of_exec_encode_or_clr (.inl hi) hexec)

/-! ### `ENC5` (rule R104) -/

theorem packBc5_low (blk0 blk1 : BitVec 64) : (packBc5 blk0 blk1).extractLsb' 0 64 = blk0 :=
  BitVec.extractLsb'_append_eq_right

theorem packBc5_high (blk0 blk1 : BitVec 64) : (packBc5 blk0 blk1).extractLsb' 64 64 = blk1 :=
  BitVec.extractLsb'_append_eq_left

theorem exec_enc5_of_good {s : State} (h0 : count s .c0 = 16) (h1 : count s .c1 = 16) :
    exec .enc5 s = .next (writeResult (bc5Result (sampleBlock s .c0) (sampleBlock s .c1))
      (clearCounters s)) :=
  exec_encode_of_shapeGood rfl ((shapeGood_enc5_iff s).2 ⟨h0, h1⟩)

theorem exec_enc5_of_bad {s : State} (h : ¬ (count s .c0 = 16 ∧ count s .c1 = 16)) :
    exec .enc5 s =
      .next { s with cnt := ⟨0#5, 0#5, 0#5⟩, flags := s.flags ||| 1#2, ovalid := false } :=
  exec_encode_of_not_shapeGood rfl (h ∘ (shapeGood_enc5_iff s).1)

/-- Settles O20: `ENC5` writes the blocks of channels 0 and 1 or takes `SHAPE`; counts that differ are
not both 16; and each half of `OUT` is a function of its own channel's samples alone. -/
theorem enc5EncodesOrRejects : Obligations.Enc5EncodesOrRejects := by
  refine ⟨by decide, fun s => ⟨exec_enc5_of_good, fun hbad => ?_, fun hne => ?_,
    fun h0 h1 hslots => ⟨_, exec_enc5_of_good h0 h1, ?_⟩⟩⟩
  · exact exec_enc5_of_bad (not_and_or.2 hbad)
  · exact exec_enc5_of_bad fun ⟨h0, h1⟩ => hne (h0.trans h1.symm)
  · have hblock : sampleBlock s .c0 = sampleBlock s .c1 := sampleBlock_eq_of_slots hslots
    simp [bc5Result, packBc5_low, packBc5_high, hblock]

end Sys2Proof.Machine

/-! The selection of a partition (44_bc7.md rules R111 to R115): the members of a subset, the
palette entry chosen for a pixel, and the error as a sum over the 16 pixels. -/

namespace Sys2Proof.Machine

/-! ### The members of a subset (rule R111) -/

@[simp] theorem mem_members_iff (m : PartitionMask) (s : Bool) (i : Fin 16) :
    i ∈ members m s ↔ subsetOf m i = s := by
  simp [members]

theorem members_pairwise_lt (m : PartitionMask) (s : Bool) : (members m s).Pairwise (· < ·) :=
  (List.pairwise_lt_finRange 16).filter _

theorem bothSubsetsNonempty_of_mem {t : PartitionTable} {m : PartitionMask} (hm : m ∈ t.entries) :
    BothSubsetsNonempty m := by
  obtain ⟨-, -, hmasks⟩ := (tableWellFormed_iff t.first t.rest).1 t.wf
  exact hmasks m hm

theorem members_ne_nil {m : PartitionMask} (hm : BothSubsetsNonempty m) (s : Bool) :
    members m s ≠ [] := by
  obtain ⟨⟨i, hi, hclear⟩, j, hj, hset⟩ := hm
  cases s with
  | false => exact List.ne_nil_of_mem ((mem_members_iff m false ⟨i, hi⟩).2 hclear)
  | true => exact List.ne_nil_of_mem ((mem_members_iff m true ⟨j, hj⟩).2 hset)

/-- Settles O49: the members of a subset are the ordered list of pixels filtered by the mask's bit,
and the table's well-formedness gives each subset a pixel. -/
theorem subsetsPartitionThePixels : Obligations.SubsetsPartitionThePixels := fun _ m hm =>
  ⟨mem_members_iff m, members_pairwise_lt m, members_ne_nil (bothSubsetsNonempty_of_mem hm)⟩

/-! ### The palette entry chosen for a pixel (rule R113) -/

/-- The entry chosen for pixel `i`, with its index, in the palette of the pixel's own subset. -/
def pixelChoice (V : Block Colour) (m : PartitionMask) (i : Fin 16) : Found Colour :=
  nearest (sqDist V[i]) (subsetPalette m (subsetOf m i) V)

/-- The 2-to-1 choice between the two palettes is the palette of the pixel's own subset. -/
theorem candidateIndices_eq_map (V : Block Colour) (m : PartitionMask) :
    candidateIndices V m = (List.finRange 16).map fun i => (pixelChoice V m i).index := by
  refine List.map_congr_left fun i _ => ?_
  unfold pixelChoice
  cases subsetOf m i <;> rfl

theorem candidateIndices_getElem? (V : Block Colour) (m : PartitionMask) (i : Fin 16) :
    (candidateIndices V m)[i.val]? = some (pixelChoice V m i).index := by
  simp [candidateIndices_eq_map]

/-- The Index Stream and the error of a subset are those of its pixels' own choices. -/
theorem map3_memberPixels (V : Block Colour) (m : PartitionMask) (s : Bool) :
    map3 (memberPixels m s V) (subsetPalette m s V) =
      ((members m s).map fun i => (pixelChoice V m i).index,
        ((members m s).map fun i => sqDist V[i] (pixelChoice V m i).item).sum) := by
  have hchoice : ∀ i ∈ members m s,
      nearest (sqDist V[i]) (subsetPalette m s V) = pixelChoice V m i := fun i hi => by
    rw [pixelChoice, (mem_members_iff m s i).1 hi]
  simp only [map3, mapWith, memberPixels, List.map_map, Prod.mk.injEq]
  refine ⟨List.map_congr_left fun i hi => ?_,
    congrArg List.sum (List.map_congr_left fun i hi => ?_)⟩
  · rw [Function.comp_apply, hchoice i hi]
  · rw [Function.comp_apply, hchoice i hi]

/-- Settles O50: both sides are the index of the pixel's own choice, in the subset's Index Stream
(`map3_memberPixels`) and in the indices of the block (`candidateIndices_getElem?`). -/
theorem pixelIndexIsItsSubsetsIndex : Obligations.PixelIndexIsItsSubsetsIndex := by
  intro V m s pixels P
  refine ⟨expand3_length _ _, rfl, fun j i hj => ⟨(pixelChoice V m i).index, ?_,
    candidateIndices_getElem? V m i⟩⟩
  have hstream : (map3 pixels P).1 = (members m s).map fun i => (pixelChoice V m i).index :=
    congrArg Prod.fst (map3_memberPixels V m s)
  rw [hstream, List.getElem?_map, hj, Option.map_some]

/-! ### The error of a partition (rule R114) -/

theorem subsetError_eq_sum (V : Block Colour) (m : PartitionMask) (s : Bool) :
    subsetError m s V =
      ∑ i : Fin 16 with subsetOf m i = s, sqDist V[i] (pixelChoice V m i).item := by
  have hmembers : (members m s).toFinset = Finset.univ.filter fun i => subsetOf m i = s := by
    ext i; simp
  have hnodup : (members m s).Nodup := (members_pairwise_lt m s).imp ne_of_lt
  rw [subsetError, map3_memberPixels, ← hmembers, List.sum_toFinset _ hnodup]

/-- Every pixel is in exactly one subset, so the two subsets' errors sum over all 16 pixels. -/
theorem candidateError_eq_sum (V : Block Colour) (m : PartitionMask) :
    candidateError V m = ∑ i : Fin 16, sqDist V[i] (pixelChoice V m i).item := by
  rw [candidateError, subsetError_eq_sum, subsetError_eq_sum,
    ← Finset.sum_fiberwise Finset.univ (subsetOf m), Fintype.sum_bool, Nat.add_comm]

theorem candidateError_le (V : Block Colour) (m : PartitionMask) : candidateError V m ≤ 3121200 :=
  calc candidateError V m = ∑ i : Fin 16, sqDist V[i] (pixelChoice V m i).item :=
        candidateError_eq_sum V m
    _ ≤ ∑ _i : Fin 16, 195075 := Finset.sum_le_sum fun i _ => sqDist_le _ _
    _ = 3121200 := by simp

/-! ### The partition selected (rule R115) -/

/-- No entry of the table has a smaller error than the one selected, and every entry before it a
larger one. -/
theorem bc7core_err_le {t : PartitionTable} (V : Block Colour) {p : Nat} {m : PartitionMask}
    (hm : t.entries[p]? = some m) :
    (bc7core t V).err ≤ candidateError V m ∧
      (p < (bc7core t V).part → (bc7core t V).err < candidateError V m) :=
  (firstLeast_spec (candidateError V) t.first t.rest).2 p m hm

theorem bc7core_partid (t : PartitionTable) (V : Block Colour) :
    ((bc7core t V).blk.extractLsb' 4 6).toNat = (bc7core t V).part := by
  rw [bc7core_block (entries_bc7core_part t V), bc7Block_partid (bc7core_part_lt t V)]

theorem bc7Result_part_toNat (t : PartitionTable) (V : Block Colour) :
    (bc7Result t V).part.toNat = (bc7core t V).part :=
  Nat.mod_eq_of_lt (bc7core_part_lt t V)

/-- Settles O51: the error is the sum over the pixels' own choices (`candidateError_eq_sum`), and
the selection is the first strict minimum over the table (`bc7core_err_le`). -/
theorem selectedPartitionIsTheFirstOfLeastError :
    Obligations.SelectedPartitionIsTheFirstOfLeastError := by
  intro t V r pixels palette d
  have hd : d = sqDist := funext₂ fun v p => (sqDist_eq_toNat v p).symm
  rw [hd]
  exact ⟨fun _ => rfl,
    fun m => ⟨fun i => (pixelChoice V m i).item,
      fun i => ⟨_, candidateIndices_getElem? V m i, paletteEntries_nearest _ _⟩,
      candidateError_eq_sum V m⟩,
    candidateError_le V, ⟨_, entries_bc7core_part t V, rfl⟩, fun _ _ => bc7core_err_le V,
    bc7core_partid t V, bc7Result_part_toNat t V⟩

end Sys2Proof.Machine

/-! Exceptions (60_exceptions.md): when `SHAPE` is raised, and that no push raises anything. -/

namespace Sys2Proof.Machine

open Safety

/-- A push, `PUSHV` too, has no exception: it leaves `FLAGS` alone whatever the counters hold. -/
@[simp] theorem pushEach_flags (p : Colour) (s : State) : (pushEach p s).flags = s.flags := by
  simp [pushEach]

/-- An encode command of good shape raises nothing and sets `OVALID`. -/
theorem exec_encode_raises_nothing_of_shapeGood {i : Instr} {s : State} (hi : isEncode i = true)
    (hshape : shapeGood i s) :
    ∃ t, exec i s = .next t ∧ t.flags = s.flags ∧ t.ovalid = true := by
  have hflags : (writeResult (resultIfGood i s) (clearCounters s)).flags = s.flags := by
    rw [writeResult_flags, clearCounters_flags]
  exact ⟨_, exec_encode_of_shapeGood hi hshape, hflags, writeResult_ovalid _ _⟩

/-- Settles O22: an encode command looks at its own channels' counters only (`shapeGood`), and takes
`SHAPE` or writes its result by that answer alone; the pushes do not write `FLAGS`. -/
theorem shapeIsRaisedByBadCountsOnly : Obligations.ShapeIsRaisedByBadCountsOnly := by
  refine ⟨fun i s hi => ⟨fun hbad => ?_, fun hgood => ?_⟩, fun c v s => ?_, fun c0 c1 c2 s => ?_⟩
  · exact exec_encode_of_not_shapeGood hi hbad
  · exact exec_encode_raises_nothing_of_shapeGood hi hgood
  · exact ⟨_, exec_push c v s, pushSample_flags c v s⟩
  · exact ⟨_, exec_pushv_eq_pushEach c0 c1 c2 s, pushEach_flags ⟨c0, c1, c2⟩ s⟩

end Sys2Proof.Machine

/-! Decoding and encoding as inverses of each other (30_encoding.md Part A), and the words of the
assembler (rules R51, R52). -/

namespace Sys2Proof

open Laws

/-! ### The fields of an encoded command (rules R45, R47) -/

theorem opField_encode (i : Instr) : opField (encode i) = opcodeOf i := by
  cases i with
  | nop => exact EncodedOpcode.nop
  | clr => exact EncodedOpcode.clr
  | push ch v => exact EncodedOpcode.push ch v
  | pushv c0 c1 c2 => exact EncodedOpcode.pushv c0 c1 c2
  | enc4 => exact EncodedOpcode.enc4
  | enc5 => exact EncodedOpcode.enc5
  | enc7 => exact EncodedOpcode.enc7
  | clrf => exact EncodedOpcode.clrf

theorem zReserved_encodeZ (op : BitVec 4) : zReserved (encodeZ op) = 0#28 :=
  BitVec.extractLsb'_append_eq_right

theorem fields_encode_push (ch : BitVec 2) (v : Byte) :
    chField (encode (.push ch v)) = ch ∧ byte0Field (encode (.push ch v)) = v ∧
      pReservedHigh (encode (.push ch v)) = 0#2 ∧ pReservedLow (encode (.push ch v)) = 0#16 := by
  simp only [encode, chField, byte0Field, pReservedHigh, pReservedLow]
  refine ⟨?_, BitVec.extractLsb'_append_eq_right, ?_, ?_⟩
  · iterate 2 rw [BitVec.extractLsb'_append_eq_of_le (by decide)]
    exact BitVec.extractLsb'_append_eq_right
  · iterate 3 rw [BitVec.extractLsb'_append_eq_of_le (by decide)]
    exact BitVec.extractLsb'_append_eq_right
  · rw [BitVec.extractLsb'_append_eq_of_le (by decide)]
    exact BitVec.extractLsb'_append_eq_right

theorem fields_encode_pushv (c0 c1 c2 : Byte) :
    byte0Field (encode (.pushv c0 c1 c2)) = c0 ∧ byte1Field (encode (.pushv c0 c1 c2)) = c1 ∧
      byte2Field (encode (.pushv c0 c1 c2)) = c2 ∧ vReserved (encode (.pushv c0 c1 c2)) = 0#4 := by
  simp only [encode, byte0Field, byte1Field, byte2Field, vReserved]
  refine ⟨BitVec.extractLsb'_append_eq_right, ?_, ?_, ?_⟩
  · rw [BitVec.extractLsb'_append_eq_of_le (by decide)]
    exact BitVec.extractLsb'_append_eq_right
  · iterate 2 rw [BitVec.extractLsb'_append_eq_of_le (by decide)]
    exact BitVec.extractLsb'_append_eq_right
  · iterate 3 rw [BitVec.extractLsb'_append_eq_of_le (by decide)]
    exact BitVec.extractLsb'_append_eq_right

theorem carriesOperands_encode {i : Instr} (hwf : i.wellFormed = true) :
    CarriesOperands (encode i) i := by
  cases i with
  | push ch v =>
    obtain ⟨hch, hv, hhigh, hlow⟩ := fields_encode_push ch v
    exact ⟨⟨hch.symm, hv.symm⟩, hhigh, hlow, by simpa [hch, Instr.wellFormed] using hwf⟩
  | pushv c0 c1 c2 =>
    obtain ⟨h0, h1, h2, hreserved⟩ := fields_encode_pushv c0 c1 c2
    exact ⟨⟨h0.symm, h1.symm, h2.symm⟩, hreserved⟩
  | _ => exact zReserved_encodeZ _

/-- Settles O1: the encoded word has the opcode and carries the operands by which the decoder
recognises the command (`decode_of_fields`). -/
theorem decodeEncodeRoundTrip : Obligations.DecodeEncodeRoundTrip := fun i hwf =>
  decode_of_fields (opField_encode i) (carriesOperands_encode hwf)

/-! ### A legal word is the encoding of its command -/

/-- Opcode, operands and zero reserved bits are all the bits of a word, format by format. -/
theorem encode_eq_of_fields {w : Word} {i : Instr} (hop : opField w = opcodeOf i)
    (h : CarriesOperands w i) : encode i = w := by
  have hopcode : opField (encode i) = opField w := (opField_encode i).trans hop.symm
  cases i with
  | push ch v =>
    obtain ⟨hch, hv, hhigh, hlow⟩ := fields_encode_push ch v
    obtain ⟨⟨hch', hv'⟩, hhigh', hlow', -⟩ := h
    exact (word_eq_iff_formatP _ _).2 ⟨hopcode, hhigh.trans hhigh'.symm, hch.trans hch',
      hlow.trans hlow'.symm, hv.trans hv'⟩
  | pushv c0 c1 c2 =>
    obtain ⟨h0, h1, h2, hreserved⟩ := fields_encode_pushv c0 c1 c2
    obtain ⟨⟨h0', h1', h2'⟩, hreserved'⟩ := h
    exact (word_eq_iff_formatV _ _).2 ⟨hopcode, hreserved.trans hreserved'.symm, h2.trans h2',
      h1.trans h1', h0.trans h0'⟩
  | _ => exact (word_eq_iff_formatZ _ _).2 ⟨hopcode, (zReserved_encodeZ _).trans h.symm⟩

theorem encode_of_decode {w : Word} {i : Instr} (h : decode w = .ok i) : encode i = w :=
  have ⟨hop, hoperands⟩ := decode_ok_fields h
  encode_eq_of_fields hop hoperands

/-- Settles O2: the decoder gives well-formed commands only, and the fields it has checked are all
the bits of the word (`encode_eq_of_fields`). -/
theorem legalWordIsTheEncodingOfItsCommand : Obligations.LegalWordIsTheEncodingOfItsCommand :=
  fun _ _ h => ⟨wellFormed_of_decode h, encode_of_decode h⟩

/-- Settles O5: each word is the encoding of its command. -/
theorem writtenOutWordsDecode : Obligations.WrittenOutWordsDecode :=
  ⟨decodeEncodeRoundTrip .nop rfl, decodeEncodeRoundTrip .clr rfl,
    decodeEncodeRoundTrip (.push 1#2 0x7F#8) rfl,
    decodeEncodeRoundTrip (.pushv 200#8 10#8 30#8) rfl, decodeEncodeRoundTrip .enc4 rfl,
    decodeEncodeRoundTrip .enc5 rfl, decodeEncodeRoundTrip .enc7 rfl,
    decodeEncodeRoundTrip .clrf rfl⟩

/-! ### The operands of the assembler (rule R51) -/

/-- The command of the line `PUSH ch, v`. -/
def pushOf (ch v : Nat) : Instr := .push (BitVec.ofNat 2 ch) (BitVec.ofNat 8 v)

/-- The command of the line `PUSHV c0, c1, c2`. -/
def pushvOf (c0 c1 c2 : Nat) : Instr :=
  .pushv (BitVec.ofNat 8 c0) (BitVec.ofNat 8 c1) (BitVec.ofNat 8 c2)

theorem asmPush_eq (ch v : Nat) :
    asmPush ch v = if ch < 3 ∧ v < 256 then some (pushOf ch v) else none := by
  unfold asmPush channelOperand byteOperand pushOf
  by_cases hch : ch < 3 <;> by_cases hv : v < 256 <;> simp [hch, hv]

theorem asmPushv_eq (c0 c1 c2 : Nat) :
    asmPushv c0 c1 c2 =
      if c0 < 256 ∧ c1 < 256 ∧ c2 < 256 then some (pushvOf c0 c1 c2) else none := by
  unfold asmPushv byteOperand pushvOf
  by_cases h0 : c0 < 256 <;> by_cases h1 : c1 < 256 <;> by_cases h2 : c2 < 256 <;>
    simp [h0, h1, h2]

/-- A list is accepted when each of its items is. -/
theorem mapM_eq_ite {α β : Type} {f : α → Option β} {p : α → Prop} [DecidablePred p] {g : α → β}
    (hf : ∀ a, f a = if p a then some (g a) else none) (l : List α) :
    l.mapM f = if ∀ a ∈ l, p a then some (l.map g) else none := by
  induction l with
  | nil => simp
  | cons a l ih =>
    by_cases ha : p a
    · simp only [List.mapM_cons, hf, ih, ha, List.forall_mem_cons, true_and, if_true]
      split_ifs <;> rfl
    · simp [hf, ha]

theorem ofNat_setWidth_32 {n k : Nat} (hn : n ≤ 32) (hk : k < 2 ^ n) :
    (BitVec.ofNat n k).setWidth 32 = BitVec.ofNat 32 k := by
  have hpow : 2 ^ n ≤ 2 ^ 32 := Nat.pow_le_pow_right (by decide) hn
  apply BitVec.eq_of_toNat_eq
  simp only [BitVec.toNat_setWidth, BitVec.toNat_ofNat]
  rw [Nat.mod_eq_of_lt hk]

theorem ofNat_two_ne_three {ch : Nat} (hch : ch < 3) : BitVec.ofNat 2 ch ≠ 3#2 := by
  interval_cases ch <;> decide

theorem pushOf_wellFormed {ch : Nat} (hch : ch < 3) (v : Nat) :
    (pushOf ch v).wellFormed = true := by
  simpa [pushOf, Instr.wellFormed] using ofNat_two_ne_three hch

/-! ### The words of the assembler (rules R51, R52) -/

/-- The word of `PUSH ch, v`, its operands shifted to their fields. -/
def pushWord (ch v : Nat) : Word :=
  0x20000000#32 ||| (BitVec.ofNat 32 ch <<< 24) ||| BitVec.ofNat 32 v

/-- The word of `PUSHV c0, c1, c2`, its operands shifted to their fields. -/
def pushvWord (c0 c1 c2 : Nat) : Word :=
  0x30000000#32 ||| (BitVec.ofNat 32 c2 <<< 16) ||| (BitVec.ofNat 32 c1 <<< 8) |||
    BitVec.ofNat 32 c0

theorem encode_pushOf {ch v : Nat} (hch : ch < 3) (hv : v < 256) :
    encode (pushOf ch v) = pushWord ch v := by
  have hdecode := decode_push_word (ofNat_two_ne_three hch) (BitVec.ofNat 8 v)
  rw [ofNat_setWidth_32 (by decide) (by omega), ofNat_setWidth_32 (by decide) (by omega)] at hdecode
  exact encode_of_decode hdecode

theorem encode_pushvOf {c0 c1 c2 : Nat} (h0 : c0 < 256) (h1 : c1 < 256) (h2 : c2 < 256) :
    encode (pushvOf c0 c1 c2) = pushvWord c0 c1 c2 := by
  have hdecode := decode_pushv_word (BitVec.ofNat 8 c0) (BitVec.ofNat 8 c1) (BitVec.ofNat 8 c2)
  rw [ofNat_setWidth_32 (by decide) (by omega), ofNat_setWidth_32 (by decide) (by omega),
    ofNat_setWidth_32 (by decide) (by omega)] at hdecode
  exact encode_of_decode hdecode

theorem expand_push (ch v : Nat) :
    (AsmLine.push ch v).expand = if ch < 3 ∧ v < 256 then some [pushOf ch v] else none := by
  rw [AsmLine.expand, asmPush_eq]
  split_ifs <;> rfl

theorem expand_pushv (c0 c1 c2 : Nat) :
    (AsmLine.pushv c0 c1 c2).expand =
      if c0 < 256 ∧ c1 < 256 ∧ c2 < 256 then some [pushvOf c0 c1 c2] else none := by
  rw [AsmLine.expand, asmPushv_eq]
  split_ifs <;> rfl

theorem expand_load1 (ch : Nat) (vs : Block Nat) :
    (AsmLine.load1 ch vs).expand =
      if ch < 3 ∧ ∀ v ∈ vs.toList, v < 256 then some (vs.toList.map (pushOf ch)) else none := by
  have hne : ∃ v, v ∈ vs.toList := ⟨vs[0], by simp⟩
  have hall : (∀ v ∈ vs.toList, ch < 3 ∧ v < 256) ↔ ch < 3 ∧ ∀ v ∈ vs.toList, v < 256 := by
    obtain ⟨v, hv⟩ := hne
    exact ⟨fun h => ⟨(h v hv).1, fun u hu => (h u hu).2⟩, fun h u hu => ⟨h.1, h.2 u hu⟩⟩
  rw [AsmLine.expand, mapM_eq_ite (asmPush_eq ch), if_congr hall rfl rfl]

theorem expand_load3 (vs : Block (Triple Nat)) :
    (AsmLine.load3 vs).expand =
      if ∀ p ∈ vs.toList, p.c0 < 256 ∧ p.c1 < 256 ∧ p.c2 < 256 then
        some (vs.toList.map fun p => pushvOf p.c0 p.c1 p.c2) else none := by
  rw [AsmLine.expand, mapM_eq_ite fun p => asmPushv_eq p.c0 p.c1 p.c2]

theorem assemble_push (ch v : Nat) :
    (AsmLine.push ch v).assemble = if ch < 3 ∧ v < 256 then some [pushWord ch v] else none := by
  rw [AsmLine.assemble, expand_push]
  split_ifs with h
  · simp [encode_pushOf h.1 h.2]
  · rfl

theorem assemble_pushv (c0 c1 c2 : Nat) :
    (AsmLine.pushv c0 c1 c2).assemble =
      if c0 < 256 ∧ c1 < 256 ∧ c2 < 256 then some [pushvWord c0 c1 c2] else none := by
  rw [AsmLine.assemble, expand_pushv]
  split_ifs with h
  · obtain ⟨h0, h1, h2⟩ := h
    simp [encode_pushvOf h0 h1 h2]
  · rfl

theorem assemble_load1 (ch : Nat) (vs : Block Nat) :
    (AsmLine.load1 ch vs).assemble =
      if ch < 3 ∧ ∀ v ∈ vs.toList, v < 256 then some (vs.toList.map (pushWord ch)) else none := by
  rw [AsmLine.assemble, expand_load1]
  split_ifs with h
  · obtain ⟨hch, hvs⟩ := h
    rw [Option.map_some, List.map_map]
    exact congrArg some (List.map_congr_left fun v hv => encode_pushOf hch (hvs v hv))
  · rfl

theorem assemble_load3 (vs : Block (Triple Nat)) :
    (AsmLine.load3 vs).assemble =
      if ∀ p ∈ vs.toList, p.c0 < 256 ∧ p.c1 < 256 ∧ p.c2 < 256 then
        some (vs.toList.map fun p => pushvWord p.c0 p.c1 p.c2) else none := by
  rw [AsmLine.assemble, expand_load3]
  split_ifs with h
  · rw [Option.map_some, List.map_map]
    refine congrArg some (List.map_congr_left fun p hp => ?_)
    obtain ⟨h0, h1, h2⟩ := h p hp
    exact encode_pushvOf h0 h1 h2
  · rfl

/-! ### Only legal words are emitted (rule R51) -/

theorem expand_wellFormed {l : AsmLine} {is : List Instr} (h : l.expand = some is) :
    ∀ i ∈ is, i.wellFormed = true := by
  cases l with
  | push ch v =>
    rw [expand_push] at h
    split_ifs at h with hrange
    obtain rfl := Option.some.inj h
    simpa using pushOf_wellFormed hrange.1 v
  | pushv c0 c1 c2 =>
    rw [expand_pushv] at h
    split_ifs at h
    obtain rfl := Option.some.inj h
    simp [pushvOf, Instr.wellFormed]
  | load1 ch vs =>
    rw [expand_load1] at h
    split_ifs at h with hrange
    obtain rfl := Option.some.inj h
    intro i hi
    obtain ⟨v, -, rfl⟩ := List.mem_map.1 hi
    exact pushOf_wellFormed hrange.1 v
  | load3 vs =>
    rw [expand_load3] at h
    split_ifs at h
    obtain rfl := Option.some.inj h
    intro i hi
    obtain ⟨p, -, rfl⟩ := List.mem_map.1 hi
    rfl
  | _ =>
    obtain rfl := Option.some.inj h
    simp [Instr.wellFormed]

theorem assemble_decodes {l : AsmLine} {ws : List Word} (h : l.assemble = some ws) :
    ∀ w ∈ ws, ∃ i, decode w = .ok i := by
  obtain ⟨is, hexpand, rfl⟩ := Option.map_eq_some_iff.1 h
  intro w hw
  obtain ⟨i, hi, rfl⟩ := List.mem_map.1 hw
  exact ⟨i, decodeEncodeRoundTrip i (expand_wellFormed hexpand i hi)⟩

/-- Settles O6: each line's operands are checked as the numbers written, its words are the encodings
of well-formed commands, and these decode. -/
theorem assemblerEmitsOnlyLegalWords : Obligations.AssemblerEmitsOnlyLegalWords :=
  ⟨fun _ _ => assemble_decodes, rfl, rfl, rfl, rfl, rfl, rfl, assemble_push, assemble_pushv,
    assemble_load1, assemble_load3⟩

end Sys2Proof

/-! What a step of the machine can do, and what follows for the flags, `OVALID`, the result
registers and the sample buffer (10_state.md sections 4, 5 and 10; 60_exceptions.md section 1). -/

namespace Sys2Proof.Machine

open Safety

/-! ### The effect of a step -/

/-- What a step can do to a state, one constructor per kind of event: nothing presented, a reset, an
illegal word, and the word of each command; an encode command has one for a good and one for a bad
shape. -/
inductive StepEffect (s : State) : State → Prop where
  | idle (hhost : s.host = []) : StepEffect s s
  | reset {rest : List HostEvent} (hhost : s.host = .reset :: rest) :
      StepEffect s (resetEvent { s with host := rest })
  | illegal {w : Word} {rest : List HostEvent} (hhost : s.host = .command w :: rest)
      (hillegal : IllegalByRule w) : StepEffect s (takeException .illegal { s with host := rest })
  | nop {w : Word} {rest : List HostEvent} (hhost : s.host = .command w :: rest)
      (hdecode : decode w = .ok .nop) : StepEffect s { s with host := rest }
  | clr {w : Word} {rest : List HostEvent} (hhost : s.host = .command w :: rest)
      (hdecode : decode w = .ok .clr) : StepEffect s (clearCounters { s with host := rest })
  | push {w : Word} {rest : List HostEvent} (c : Channel) (v : Byte)
      (hhost : s.host = .command w :: rest) (hdecode : decode w = .ok (.push (channelNumber c) v)) :
      StepEffect s (pushSample c v { s with host := rest })
  | pushv {w : Word} {rest : List HostEvent} (p : Colour) (hhost : s.host = .command w :: rest)
      (hdecode : decode w = .ok (.pushv p.c0 p.c1 p.c2)) :
      StepEffect s (pushEach p { s with host := rest })
  | encodeGood {w : Word} {rest : List HostEvent} {i : Instr} (hhost : s.host = .command w :: rest)
      (hdecode : decode w = .ok i) (hencode : isEncode i = true) (hshape : shapeGood i s) :
      StepEffect s (writeResult (resultIfGood i s) (clearCounters { s with host := rest }))
  | encodeBad {w : Word} {rest : List HostEvent} {i : Instr} (hhost : s.host = .command w :: rest)
      (hdecode : decode w = .ok i) (hencode : isEncode i = true) (hshape : ¬ shapeGood i s) :
      StepEffect s (takeException .shape { s with host := rest })
  | clrf {w : Word} {rest : List HostEvent} (hhost : s.host = .command w :: rest)
      (hdecode : decode w = .ok .clrf) : StepEffect s (clearFlags { s with host := rest })

/-- The result of a command does not depend on what the host does next. -/
theorem resultIfGood_withHost (i : Instr) (s : State) (host : List HostEvent) :
    resultIfGood i { s with host := host } = resultIfGood i s := by
  cases i <;> rfl

/-- The step that runs a command has the effect of that command; the decoder never gives the term
`push 3 v`. -/
theorem stepEffect_of_exec {s : State} {w : Word} {rest : List HostEvent} {i : Instr}
    (hhost : s.host = .command w :: rest) (hdecode : decode w = .ok i) :
    ∃ t, exec i { s with host := rest } = .next t ∧ StepEffect s t := by
  rcases exec_cases i { s with host := rest } with ⟨rfl, h⟩ | ⟨rfl, h⟩ | ⟨c, v, rfl, h⟩ |
    ⟨v, rfl, -⟩ | ⟨c0, c1, c2, rfl, h⟩ | ⟨hi, hshape, h⟩ | ⟨hi, hshape, h⟩ | ⟨rfl, h⟩
  · exact ⟨_, h, .nop hhost hdecode⟩
  · exact ⟨_, h, .clr hhost hdecode⟩
  · exact ⟨_, h, .push c v hhost hdecode⟩
  · exact absurd (wellFormed_of_decode hdecode) (by simp [Instr.wellFormed])
  · exact ⟨_, h, .pushv ⟨c0, c1, c2⟩ hhost hdecode⟩
  · rw [resultIfGood_withHost] at h
    exact ⟨_, h, .encodeGood hhost hdecode hi hshape⟩
  · exact ⟨_, h, .encodeBad hhost hdecode hi hshape⟩
  · exact ⟨_, h, .clrf hhost hdecode⟩

/-- A step never stops, and its effect is one of those listed. -/
theorem step_next_effect (s : State) : ∃ t, step s = .next t ∧ StepEffect s t := by
  rcases step_cases s with ⟨hhost, h⟩ | ⟨rest, hhost, h⟩ | ⟨w, rest, i, hhost, hdecode, h⟩ |
    ⟨w, rest, r, hhost, hdecode, h⟩
  · exact ⟨_, h, .idle hhost⟩
  · exact ⟨_, h, .reset hhost⟩
  · obtain ⟨t, hexec, heffect⟩ := stepEffect_of_exec hhost hdecode
    exact ⟨t, h.trans hexec, heffect⟩
  · exact ⟨_, h, .illegal hhost ((decode_error_iff w).1 ⟨r, hdecode⟩)⟩

theorem stepEffect_of_step {s t : State} (h : step s = .next t) : StepEffect s t := by
  obtain ⟨t', h', heffect⟩ := step_next_effect s
  obtain rfl := Host.Outcome.next.inj (h'.symm.trans h)
  exact heffect

/-- Settles O10: a step never stops (`step_next_effect`), so neither does a run. -/
theorem noRunEverStops : Obligations.NoRunEverStops := by
  intro s k
  induction k generalizing s with
  | zero => exact ⟨s, rfl⟩
  | succ k ih =>
    obtain ⟨t, hstep, -⟩ := step_next_effect s
    obtain ⟨u, hrun⟩ := ih t
    exact ⟨u, (run_succ k hstep).trans hrun⟩

/-! ### Nothing presented, and reset (rules R25, R160) -/

theorem step_of_idle {s : State} (hhost : s.host = []) : step s = .next s := by
  simp [step, takeEvent, hhost]

theorem step_of_reset {s : State} {rest : List HostEvent} (hhost : s.host = .reset :: rest) :
    step s = .next (resetEvent { s with host := rest }) := by
  simp [step, takeEvent, hhost, acceptEvent]

/-- Settles O8: the step of a reset is `resetEvent` (`step_of_reset`), the reset state with the rest
of the host's list. -/
theorem resetEventRestoresTheResetState : Obligations.ResetEventRestoresTheResetState :=
  fun _ _ hhost => step_of_reset hhost

/-- Settles O9: the counters are cleared, and the other registers are read off `State.reset`. -/
theorem resetRegisterValues : Obligations.ResetRegisterValues :=
  ⟨(count_eq_zero_iff State.reset).2 rfl, rfl, rfl, rfl, rfl, rfl, rfl, rfl, rfl⟩

/-! ### The step of the registers alone (rule R10) -/

theorem encodeCommand_withHost (good : Bool) (r : Result) (s : State) (host : List HostEvent) :
    encodeCommand good r { s with host := host } =
      { encodeCommand good r s with host := host } := by
  cases good <;> rfl

/-- A command neither reads nor writes the host's list. -/
theorem exec_withHost {i : Instr} {s t : State} (h : exec i s = .next t) (host : List HostEvent) :
    exec i { s with host := host } = .next { t with host := host } := by
  cases i with
  | push ch v =>
    cases hc : channelOf ch with
    | none =>
      obtain rfl := (channelOf_eq_none_iff ch).1 hc
      obtain rfl := Host.Outcome.next.inj h
      rfl
    | some c =>
      obtain rfl := (channelOf_eq_some_iff ch c).1 hc
      obtain rfl := Host.Outcome.next.inj ((exec_push c v s).symm.trans h)
      exact exec_push c v _
  | enc4 | enc5 | enc7 =>
    obtain rfl := Host.Outcome.next.inj h
    exact congrArg _ (encodeCommand_withHost _ _ s host)
  | _ =>
    obtain rfl := Host.Outcome.next.inj h
    rfl

theorem acceptCommand_withHost {w : Word} {s t : State} (h : acceptCommand w s = .next t)
    (host : List HostEvent) :
    acceptCommand w { s with host := host } = .next { t with host := host } := by
  unfold acceptCommand at h ⊢
  cases hdecode : decode w with
  | ok i =>
    rw [hdecode] at h
    exact exec_withHost h host
  | error r =>
    rw [hdecode] at h
    obtain rfl := Host.Outcome.next.inj h
    rfl

theorem step_of_command {s : State} {w : Word} {rest : List HostEvent}
    (hhost : s.host = .command w :: rest) :
    step s = acceptCommand w { s with host := rest } := by
  simp [step, takeEvent, hhost, acceptEvent]

/-- Settles O55: the word has the same effect whatever list stands beside the registers
(`acceptCommand_withHost`), so the empty one of `registerStep` will do. -/
theorem stepIsTheRegisterStepOfTheWord : Obligations.StepIsTheRegisterStepOfTheWord := by
  intro s w rest hhost
  obtain ⟨t, hstep, -⟩ := step_next_effect s
  have haccept : acceptCommand w { s with host := rest } = .next t :=
    (step_of_command hhost).symm.trans hstep
  have hrest : acceptCommand w { s with host := rest } = .next { t with host := rest } :=
    acceptCommand_withHost haccept rest
  have hempty : acceptCommand w { s with host := [] } = .next { t with host := [] } :=
    acceptCommand_withHost haccept []
  refine ⟨t.toRegisters, ?_, (step_of_command hhost).trans hrest⟩
  unfold registerStep
  rw [hempty]

/-! ### The flags (rule R15) -/

/-- Raising an exception sets its own bit and leaves the other. -/
theorem getLsbD_flagsWith (e e' : Exception) (f : BitVec 2) :
    (flagsWith e f).getLsbD (exceptionCode e') =
      (decide (e' = e) || f.getLsbD (exceptionCode e')) := by
  revert f
  cases e <;> cases e' <;> decide

theorem flagShape_eq (s : State) : flagShape s = s.flags.getLsbD (exceptionCode .shape) := rfl

theorem flagCmd_eq (s : State) : flagCmd s = s.flags.getLsbD (exceptionCode .illegal) := rfl

/-- What a step can do to `FLAGS`: nothing, clear it, or raise one of the two exceptions. -/
theorem flags_of_stepEffect {s t : State} (h : StepEffect s t) :
    t.flags = s.flags ∨
    (t.flags = 0#2 ∧
      ∃ rest, s.host = .reset :: rest ∨ s.host = .command 0x80000000#32 :: rest) ∨
    (t.flags = flagsWith .shape s.flags ∧ ∃ w rest i, s.host = .command w :: rest ∧
      decode w = .ok i ∧ isEncode i = true ∧ ¬ shapeGood i s) ∨
    (t.flags = flagsWith .illegal s.flags ∧
      ∃ w rest, s.host = .command w :: rest ∧ IllegalByRule w) := by
  cases h with
  | reset hhost => exact .inr (.inl ⟨rfl, _, .inl hhost⟩)
  | clrf hhost hdecode =>
    obtain rfl := encode_of_decode hdecode
    exact .inr (.inl ⟨rfl, _, .inr hhost⟩)
  | encodeBad hhost hdecode hi hshape =>
    exact .inr (.inr (.inl ⟨rfl, _, _, _, hhost, hdecode, hi, hshape⟩))
  | illegal hhost hillegal => exact .inr (.inr (.inr ⟨rfl, _, _, hhost, hillegal⟩))
  | _ => exact .inl rfl

/-- Settles O26: only a reset and a `CLRF` clear a flag (`flags_of_stepEffect`). -/
theorem flagsAreSticky : Obligations.FlagsAreSticky := by
  intro s t hstep hclrf hreset
  rcases flags_of_stepEffect (stepEffect_of_step hstep) with
    h | ⟨-, rest, h | h⟩ | ⟨h, -⟩ | ⟨h, -⟩
  · simp [flagShape_eq, flagCmd_eq, h]
  · exact absurd h (hreset rest)
  · exact absurd h (hclrf rest)
  · simp [flagShape_eq, flagCmd_eq, h, getLsbD_flagsWith]
  · simp [flagShape_eq, flagCmd_eq, h, getLsbD_flagsWith]

/-- Settles O27: a flag that was 0 and is 1 was raised, each by its own exception
(`flags_of_stepEffect`, `getLsbD_flagsWith`). -/
theorem flagsRiseOnlyAtTheirException : Obligations.FlagsRiseOnlyAtTheirException := by
  intro s t hstep
  simp only [flagShape_eq, flagCmd_eq]
  rcases flags_of_stepEffect (stepEffect_of_step hstep) with
    h | ⟨h, -⟩ | ⟨h, hshape⟩ | ⟨h, hillegal⟩
  · simp +contextual [h]
  · simp [h]
  · exact ⟨fun _ _ => hshape, by simp +contextual [h, getLsbD_flagsWith]⟩
  · exact ⟨by simp +contextual [h, getLsbD_flagsWith], fun _ _ => hillegal⟩

/-! ### `OVALID` (rule R18) -/

/-- The commands that do not encode leave the result registers and `OVALID` alone. -/
theorem exec_frame_of_not_isEncode {i : Instr} {s t : State} (hi : isEncode i = false)
    (hexec : exec i s = .next t) : resultOf t = resultOf s ∧ t.ovalid = s.ovalid := by
  rcases exec_cases i s with ⟨-, h⟩ | ⟨-, h⟩ | ⟨c, v, -, h⟩ | ⟨v, -, h⟩ | ⟨c0, c1, c2, -, h⟩ |
    ⟨hi', -⟩ | ⟨hi', -⟩ | ⟨-, h⟩
  case inr.inr.inr.inr.inr.inl => exact absurd (hi'.symm.trans hi) (by decide)
  case inr.inr.inr.inr.inr.inr.inl => exact absurd (hi'.symm.trans hi) (by decide)
  all_goals
    obtain rfl := Host.Outcome.next.inj (h.symm.trans hexec)
    exact ⟨rfl, rfl⟩

theorem ovalid_of_exec_encode {i : Instr} {s t : State} (hi : isEncode i = true)
    (hexec : exec i s = .next t) : t.ovalid = true ↔ shapeGood i s := by
  obtain ⟨good, hgood, h⟩ := exec_encode hi s
  obtain rfl := Host.Outcome.next.inj (h.symm.trans hexec)
  rw [encodeCommand_ovalid, hgood]

/-- Settles O28: an encode command sets or clears `OVALID` by its shape (`ovalid_of_exec_encode`);
the other commands (`exec_frame_of_not_isEncode`) and the illegal words leave it. -/
theorem ovalidTellsTheLastEncode : Obligations.OvalidTellsTheLastEncode := by
  refine ⟨fun s w rest hhost => ?_, fun s rest hhost => ⟨_, step_of_reset hhost, rfl⟩⟩
  obtain ⟨t, hstep, -⟩ := step_next_effect s
  refine ⟨t, hstep, fun i hdecode hi => ?_, fun i hdecode hi => ?_, fun r hdecode => ?_⟩
  · have hshape := ovalid_of_exec_encode hi ((step_of_decodable hhost hdecode).symm.trans hstep)
    exact hshape
  · exact (exec_frame_of_not_isEncode hi ((step_of_decodable hhost hdecode).symm.trans hstep)).2
  · obtain rfl := Host.Outcome.next.inj ((step_of_undecodable hhost hdecode).symm.trans hstep)
    rfl

/-! ### Who writes the result registers, the samples and the counters (10_state.md section 10) -/

theorem encode_of_result_ne {s t : State} (h : StepEffect s t)
    (hreset : ∀ rest, s.host ≠ .reset :: rest) (hne : resultOf t ≠ resultOf s) :
    ∃ w rest i, s.host = .command w :: rest ∧ decode w = .ok i ∧ isEncode i = true ∧
      shapeGood i s := by
  cases h with
  | encodeGood hhost hdecode hi hshape => exact ⟨_, _, _, hhost, hdecode, hi, hshape⟩
  | reset hhost => exact absurd hhost (hreset _)
  | _ => exact absurd rfl hne

theorem push_of_samples_ne {s t : State} (h : StepEffect s t)
    (hreset : ∀ rest, s.host ≠ .reset :: rest) (hne : t.samples ≠ s.samples) :
    ∃ w rest, s.host = .command w :: rest ∧
      ((∃ ch v, decode w = .ok (.push ch v)) ∨ ∃ c0 c1 c2, decode w = .ok (.pushv c0 c1 c2)) := by
  cases h with
  | push c v hhost hdecode => exact ⟨_, _, hhost, .inl ⟨_, _, hdecode⟩⟩
  | pushv p hhost hdecode => exact ⟨_, _, hhost, .inr ⟨_, _, _, hdecode⟩⟩
  | reset hhost => exact absurd hhost (hreset _)
  | _ => exact absurd rfl hne

theorem ne_of_isEncode {i j : Instr} (hi : isEncode i = true) (hj : isEncode j = false) : i ≠ j :=
  fun h => absurd (hi.symm.trans ((congrArg isEncode h).trans hj)) (by decide)

theorem command_of_cnt_ne {s t : State} (h : StepEffect s t)
    (hreset : ∀ rest, s.host ≠ .reset :: rest) (hne : t.cnt ≠ s.cnt) :
    ∃ w rest i, s.host = .command w :: rest ∧ decode w = .ok i ∧ i ≠ .nop ∧ i ≠ .clrf := by
  cases h with
  | clr hhost hdecode => exact ⟨_, _, _, hhost, hdecode, nofun, nofun⟩
  | push c v hhost hdecode => exact ⟨_, _, _, hhost, hdecode, nofun, nofun⟩
  | pushv p hhost hdecode => exact ⟨_, _, _, hhost, hdecode, nofun, nofun⟩
  | encodeGood hhost hdecode hi =>
    exact ⟨_, _, _, hhost, hdecode, ne_of_isEncode hi rfl, ne_of_isEncode hi rfl⟩
  | encodeBad hhost hdecode hi =>
    exact ⟨_, _, _, hhost, hdecode, ne_of_isEncode hi rfl, ne_of_isEncode hi rfl⟩
  | reset hhost => exact absurd hhost (hreset _)
  | _ => exact absurd rfl hne

/-- Settles O29: every other kind of step leaves the registers in question as they are. -/
theorem onlyTheirCommandsChangeRegisters : Obligations.OnlyTheirCommandsChangeRegisters :=
  fun _ _ hstep hreset =>
    have heffect := stepEffect_of_step hstep
    ⟨encode_of_result_ne heffect hreset, push_of_samples_ne heffect hreset,
      command_of_cnt_ne heffect hreset⟩

end Sys2Proof.Machine

/-! What the host reads (20_memory.md, 10_state.md section 5), and the single commands: the term
`push 3 v`, `PUSHV` as three pushes, and `ENC7`. -/

namespace Sys2Proof.Machine

open Safety

/-! ### Pushes (rules R92, R93) -/

/-- Settles O14: the field value 3 names no channel. -/
theorem pushToChannelThreeRaisesIllegal : Obligations.PushToChannelThreeRaisesIllegal :=
  fun _ s => congrArg Host.Outcome.next (takeException_illegal_eq s)

/-- Pushes to different channels commute: neither sees the slots or the counter of the other. -/
theorem pushSample_comm {c c' : Channel} (h : c ≠ c') (v v' : Byte) (s : State) :
    pushSample c v (pushSample c' v' s) = pushSample c' v' (pushSample c v s) := by
  cases c <;> cases c' <;> simp at h <;> rfl

/-- Three pushes one after the other. -/
theorem runCommands_three_pushes (c c' c'' : Channel) (v v' v'' : Byte) (s : State) :
    runCommands [.push (channelNumber c) v, .push (channelNumber c') v',
      .push (channelNumber c'') v''] s =
      .next (pushSample c'' v'' (pushSample c' v' (pushSample c v s))) := by
  simp [runCommands, exec_push]

/-- Settles O16: `PUSHV` is the pushes in the order 0, 1, 2, and every other order is reached by
swapping neighbours (`pushSample_comm`). -/
theorem pushvIsThreePushes : Obligations.PushvIsThreePushes := by
  intro c0 c1 c2 s
  have h10 := pushSample_comm (by decide : Channel.c1 ≠ .c0) c1 c0
  have h20 := pushSample_comm (by decide : Channel.c2 ≠ .c0) c2 c0
  have h21 := pushSample_comm (by decide : Channel.c2 ≠ .c1) c2 c1
  rw [exec_pushv]
  refine ⟨?_, ?_, ?_, ?_, ?_, ?_⟩
  · exact (runCommands_three_pushes .c0 .c1 .c2 c0 c1 c2 s).symm
  · rw [h21]
    exact (runCommands_three_pushes .c0 .c2 .c1 c0 c2 c1 s).symm
  · rw [h10]
    exact (runCommands_three_pushes .c1 .c0 .c2 c1 c0 c2 s).symm
  · rw [h10, h20]
    exact (runCommands_three_pushes .c1 .c2 .c0 c1 c2 c0 s).symm
  · rw [h21, h20]
    exact (runCommands_three_pushes .c2 .c0 .c1 c2 c0 c1 s).symm
  · rw [h10, h20, h21]
    exact (runCommands_three_pushes .c2 .c1 .c0 c2 c1 c0 s).symm

/-! ### `ENC7` (rule R120) -/

theorem shapeGood_enc7_iff (s : State) : shapeGood .enc7 s ↔ ∀ c, count s c = 16 := by
  refine ⟨fun h c => h c ?_, fun h c _ => h c⟩
  cases c <;> simp [neededChannels]

theorem exec_enc7_of_good {s : State} (h : ∀ c, count s c = 16) :
    exec .enc7 s =
      .next (writeResult (bc7Result Config.partitionTable (pixelBlock s)) (clearCounters s)) :=
  exec_encode_of_shapeGood rfl ((shapeGood_enc7_iff s).2 h)

/-- Settles O21: `ENC7` writes its result or takes `SHAPE`, by the counts of all three channels. -/
theorem enc7EncodesOrRejects : Obligations.Enc7EncodesOrRejects := by
  refine ⟨by decide, fun s => ⟨exec_enc7_of_good, fun ⟨c, hc⟩ => ?_⟩⟩
  exact exec_encode_of_not_shapeGood rfl fun h => hc ((shapeGood_enc7_iff s).1 h c)

/-! ### The output space (rules R30, R31) -/

/-- The upper half of `OUT` is zero under a BC4 block (rule R57). -/
theorem placeBc4_high_byte (blk : BitVec 64) {k : Nat} (hk : k < 8) :
    (placeBc4 blk).extractLsb' (8 * (8 + k)) 8 = 0#8 := by
  unfold placeBc4
  rw [BitVec.extractLsb'_append_eq_of_le (by omega), BitVec.extractLsb'_zero]

theorem memRead_bytes {s : State} {addr n : Nat} (h : addr + n ≤ 16) :
    ∃ bs, memRead s addr n = .ok bs ∧ bs.length = n ∧
      ∀ k, k < n → bs[k]? = some (s.out.extractLsb' (8 * (addr + k)) 8) :=
  ⟨_, memRead_of_le h, by simp, fun k hk => by simp [hk, outByte]⟩

theorem memRead_high_of_bc4 {s : State} {blk : BitVec 64} (hout : s.out = placeBc4 blk) :
    memRead s 8 8 = .ok (List.replicate 8 0#8) := by
  have hzero : ∀ k ∈ List.range 8, outByte s (8 + k) = 0#8 := fun k hk => by
    rw [outByte, hout, placeBc4_high_byte blk (List.mem_range.1 hk)]
  rw [memRead_of_le (by decide), List.map_congr_left hzero]
  simp

/-- Settles O33: a read in range gives the bytes of `OUT`, and `ENC4` leaves the upper half zero. -/
theorem memReadGivesTheBytesOfOut : Obligations.MemReadGivesTheBytesOfOut := by
  refine ⟨fun s addr n => ⟨memRead_bytes, memRead_of_gt⟩, fun s t hcount hexec => ?_⟩
  obtain rfl := Host.Outcome.next.inj ((exec_enc4_of_good hcount).symm.trans hexec)
  exact memRead_high_of_bc4 rfl

/-- Settles O34: a byte of a word of `OUT` is a field of a field. -/
theorem wordReadsGiveTheSameByteStream : Obligations.WordReadsGiveTheSameByteStream := by
  refine fun s => ⟨fun w k hk => ?_, fun w k hk => ?_⟩
  · rw [outWord32, extractLsb'_extractLsb'_add _ (by omega), outByte]
    congr 1
    omega
  · rw [outWord64, extractLsb'_extractLsb'_add _ (by omega), outByte]
    congr 1
    omega

/-! ### The ports (rule R21) -/

theorem ports_cnt_field (s : State) (c : Channel) :
    (ports s).cnt.extractLsb' (5 * (channelNumber c).toNat) 5 = s.cnt.get c := by
  unfold ports
  cases c with
  | c0 => exact BitVec.extractLsb'_append_eq_right
  | c1 =>
    rw [BitVec.extractLsb'_append_eq_of_le (by decide)]
    exact BitVec.extractLsb'_append_eq_right
  | c2 =>
    rw [BitVec.extractLsb'_append_eq_of_le (by decide)]
    exact BitVec.extractLsb'_append_eq_left

/-- Settles O35: the port `cnt` is the three counters side by side (`ports_cnt_field`), and every
other port is its register. -/
theorem portsShowTheRegisters : Obligations.PortsShowTheRegisters :=
  fun s => ⟨ports_cnt_field s, rfl, rfl, rfl, rfl, rfl, rfl, rfl⟩

end Sys2Proof.Machine

/-! Properties of the estimator and the expander that the spec derives (40_estimator.md Properties,
41_palette_index.md). -/

namespace Sys2Proof.Machine

/-! ### `EST1` of a set of values (40_estimator.md Properties, item 5) -/

/-- Settles O41: the sorted distinct values are determined by their members. -/
theorem estimatorDependsOnTheSetOfValues : Obligations.EstimatorDependsOnTheSetOfValues := by
  intro V W h
  exact est1_eq_fitDistinct (sortDistinct_ascending _) fun x => by simp [h]

/-! ### Rounding is monotone and exact on integers (rules R70, R71) -/

theorem roundDiv_mono {num num' den : Int} (hden : 0 < den) (h : num ≤ num') :
    roundDiv num den ≤ roundDiv num' den :=
  Int.ediv_le_ediv (by omega) (by omega)

theorem roundToByte_mono {num num' den : Int} (hden : 0 < den) (h : num ≤ num') :
    (roundToByte num den).toNat ≤ (roundToByte num' den).toNat := by
  have hround := roundDiv_mono hden h
  have hfirst := roundToByte_toNat num den
  have hsecond := roundToByte_toNat num' den
  omega

theorem roundToByte_mul_self {den : Int} (hden : 0 < den) {q : Nat} (hq : q < 256) :
    roundToByte (q * den) den = BitVec.ofNat 8 q := by
  have hround : roundDiv (q * den) den = q := by
    apply roundDiv_eq_of_bounds hden <;> linarith [mul_comm den (q : Int)]
  have htoNat := roundToByte_toNat (q * den) den
  rw [hround] at htoNat
  apply BitVec.eq_of_toNat_eq
  rw [BitVec.toNat_ofNat, Nat.mod_eq_of_lt hq]
  omega

/-! ### The endpoints are ordered (40_estimator.md Properties, item 1) -/

/-- Starting the ranks one higher counts every value once more. -/
theorem rankSum_succ (j : Nat) (u : List Nat) : rankSum (j + 1) u = rankSum j u + u.sum := by
  induction u generalizing j with
  | nil => rfl
  | cons y u ih =>
    simp only [rankSum, ih, List.sum_cons, Nat.add_mul, Nat.one_mul]
    omega

/-- In an ascending list the later half of the ranks weighs more: `Sxy` is at least the mean rank
times `Sy` (Chebyshev's sum inequality). -/
theorem length_mul_sum_le_rankSum {u : List Nat} (hu : u.Pairwise (· < ·)) :
    u.length * u.sum ≤ 2 * rankSum 0 u + u.sum := by
  induction u with
  | nil => rfl
  | cons y u ih =>
    obtain ⟨hy, hu'⟩ := List.pairwise_cons.1 hu
    have hleast : u.length * y ≤ u.sum := by
      simpa using List.card_nsmul_le_sum u y fun z hz => (hy z hz).le
    have hrest := ih hu'
    simp only [List.length_cons, List.sum_cons, rankSum, rankSum_succ, Nat.zero_mul]
    nlinarith

theorem fitN0_le_fitN1 {u : List Nat} (hu : u.Pairwise (· < ·)) : fitN0 u ≤ fitN1 u := by
  have h : (u.length * u.sum : Int) ≤ 2 * rankSum 0 u + u.sum := by
    exact_mod_cast length_mul_sum_le_rankSum hu
  unfold fitN0 fitN1
  linarith

theorem fitDistinct_ordered {u : List Nat} (hu : u.Pairwise (· < ·)) (hne : u ≠ []) :
    (fitDistinct u).1.toNat ≤ (fitDistinct u).2.toNat := by
  match u, hne with
  | [v], _ => exact Nat.le_refl _
  | x :: y :: zs, _ =>
    exact roundToByte_mono (fitQ_pos (by simp)) (fitN0_le_fitN1 hu)

/-- Settles O39: the line through ascending values does not fall (`fitN0_le_fitN1`), and rounding is
monotone. -/
theorem estimatorEndpointsAreOrdered : Obligations.EstimatorEndpointsAreOrdered := by
  intro V hne
  obtain ⟨v, hv⟩ := List.exists_mem_of_ne_nil V hne
  have hmem : v.toNat ∈ sortDistinct (V.map BitVec.toNat) := by simpa using ⟨v, hv, rfl⟩
  exact fitDistinct_ordered (sortDistinct_ascending _) (List.ne_nil_of_mem hmem)

/-! ### Equally spaced values (40_estimator.md Properties, items 3 and 4) -/

theorem two_mul_sum_range' (lo n d : Nat) :
    2 * ((List.range' lo n d).sum : Int) = n * (2 * lo + (n - 1) * d) := by
  induction n generalizing lo with
  | zero => simp
  | succ n ih =>
    have hrest := ih (lo + d)
    simp only [List.range'_succ, List.sum_cons]
    push_cast at hrest ⊢
    linear_combination hrest

theorem six_mul_rankSum_range' (lo n d : Nat) :
    6 * (rankSum 0 (List.range' lo n d) : Int) = n * (n - 1) * (3 * lo + (2 * n - 1) * d) := by
  induction n generalizing lo with
  | zero => simp [rankSum]
  | succ n ih =>
    have hrest := ih (lo + d)
    have hsum := two_mul_sum_range' (lo + d) n d
    simp only [List.range'_succ, rankSum, rankSum_succ]
    push_cast at hrest hsum ⊢
    linear_combination hrest + 3 * hsum

/-- The line through equally spaced values passes through all of them, the first and the last among
them. -/
theorem fit_range' (lo n d : Nat) :
    fitN0 (List.range' lo n d) = lo * fitQ (List.range' lo n d) ∧
      fitN1 (List.range' lo n d) = (lo + (n - 1) * d) * fitQ (List.range' lo n d) := by
  have hsum := two_mul_sum_range' lo n d
  have hrank := six_mul_rankSum_range' lo n d
  simp only [fitN0, fitN1, fitQ, List.length_range']
  constructor
  · linear_combination (2 * (n : Int) - 1) * hsum - hrank
  · linear_combination hrank - ((n : Int) - 2) * hsum

theorem fitDistinct_range' {lo n d : Nat} (hn : 2 ≤ n) (hlast : lo + (n - 1) * d < 256) :
    fitDistinct (List.range' lo n d) =
      (BitVec.ofNat 8 lo, BitVec.ofNat 8 (lo + (n - 1) * d)) := by
  have hlen : 2 ≤ (List.range' lo n d).length := by simpa using hn
  have hfirst : lo < 256 := by omega
  obtain ⟨h0, h1⟩ := fit_range' lo n d
  have hcast : (lo + (n - 1) * d : Int) = ((lo + (n - 1) * d : Nat) : Int) := by
    push_cast [Nat.cast_sub (by omega : 1 ≤ n)]; rfl
  rw [fitDistinct_of_two_le hlen, h0, h1, hcast, roundToByte_mul_self (fitQ_pos hlen) hfirst,
    roundToByte_mul_self (fitQ_pos hlen) hlast]

/-- Settles O40: the distinct values are the arithmetic progression, and the line through it is
exact (`fit_range'`). -/
theorem estimatorIsExactOnEquallySpacedValues :
    Obligations.EstimatorIsExactOnEquallySpacedValues := by
  intro V lo d n hn hd hlast hmem
  rw [← fitDistinct_range' hn hlast]
  refine est1_eq_fitDistinct (List.pairwise_lt_range' d hd) fun x => ?_
  rw [hmem, List.mem_range']
  simp only [Nat.mul_comm d]

/-! ### A step of the palette (rules R75, R76) -/

theorem levelCount_pred_odd (L : Levels) : (levelCount L - 1) % 2 = 1 := by
  cases L <;> rfl

/-- The number of intervals is odd, so the weighted mean never lies halfway between two integers. -/
theorem paletteStep_nearest (a b : Byte) (L : Levels) {j : Nat} (hj : j < levelCount L) :
    2 * ((levelCount L - 1) * (paletteStep a b L j).toNat) <
      2 * ((levelCount L - 1 - j) * a.toNat + j * b.toNat) + (levelCount L - 1) ∧
    2 * ((levelCount L - 1 - j) * a.toNat + j * b.toNat) <
      2 * ((levelCount L - 1) * (paletteStep a b L j).toNat) + (levelCount L - 1) := by
  have hodd := levelCount_pred_odd L
  rw [paletteStep_toNat a b L j hj]
  generalize (levelCount L - 1 - j) * a.toNat + j * b.toNat = num
  generalize levelCount L - 1 = den at hodd ⊢
  have hdiv := Nat.div_add_mod (2 * num + den) (2 * den)
  have hmod := Nat.mod_lt (2 * num + den) (by omega : 0 < 2 * den)
  rw [Nat.mul_assoc] at hdiv
  omega

/-- The steps run monotonically from the first, `a`, to the last, `b`. -/
theorem paletteStep_between (a b : Byte) (L : Levels) {j : Nat} (hj : j < levelCount L) :
    min a.toNat b.toNat ≤ (paletteStep a b L j).toNat ∧
      (paletteStep a b L j).toNat ≤ max a.toNat b.toNat := by
  have hlast : levelCount L - 1 < levelCount L := by omega
  rcases Nat.le_total a.toNat b.toNat with hab | hba
  · have hlo := paletteStep_le_of_le hab L (Nat.zero_le j) hj
    have hhi := paletteStep_le_of_le hab L (by omega : j ≤ levelCount L - 1) hlast
    rw [paletteStep_first] at hlo
    rw [paletteStep_last] at hhi
    omega
  · have hhi := paletteStep_ge_of_ge hba L (Nat.zero_le j) hj
    have hlo := paletteStep_ge_of_ge hba L (by omega : j ≤ levelCount L - 1) hlast
    rw [paletteStep_first] at hhi
    rw [paletteStep_last] at hlo
    omega

/-- Settles O43: the bounds over the integers are those of `paletteStep_nearest`, and the step lies
between the endpoints (`paletteStep_between`). -/
theorem paletteStepIsTheNearestInteger : Obligations.PaletteStepIsTheNearestInteger := by
  intro a b L j hj
  obtain ⟨hupper, hlower⟩ := paletteStep_nearest a b L hj
  zify [(by omega : 1 ≤ levelCount L), (by omega : j ≤ levelCount L - 1)] at hupper hlower
  exact ⟨hupper, hlower, paletteStep_between a b L hj⟩

end Sys2Proof.Machine

/-! Blocks without loss and the bounds of the error scores (10_state.md section 5, 43_bc4_bc5.md and
44_bc7.md Consequences). -/

namespace Sys2Proof.Machine

/-! ### The error scores fit their registers (rule R19) -/

theorem bc4core_error_le (V : Block Byte) : (bc4core V).2 ≤ 4080 := by
  have h := mapWith_error_le absDist V.toList (bc4Palette V) absDist_le
  rwa [Vector.length_toList] at h

theorem bc4core_error_toNat (V : Block Byte) :
    (BitVec.ofNat 22 (bc4core V).2).toNat = (bc4core V).2 :=
  Nat.mod_eq_of_lt (Nat.lt_of_le_of_lt (bc4core_error_le V) (by decide))

theorem bc7core_error_le (t : PartitionTable) (V : Block Colour) :
    (bc7core t V).err ≤ 3121200 :=
  candidateError_le V _

theorem bc7core_error_toNat (t : PartitionTable) (V : Block Colour) :
    (BitVec.ofNat 22 (bc7core t V).err).toNat = (bc7core t V).err :=
  Nat.mod_eq_of_lt (Nat.lt_of_le_of_lt (bc7core_error_le t V) (by decide))

/-- Settles O54: 16 distances of at most 255, or of at most 195075, sum to less than `2 ^ 22`. -/
theorem errorScoresAreExact : Obligations.ErrorScoresAreExact :=
  ⟨fun V => ⟨bc4core_error_le V, bc4core_error_toNat V⟩,
    fun V0 V1 => ⟨bc4core_error_toNat V0, bc4core_error_toNat V1⟩,
    fun t V => ⟨bc7core_error_le t V, bc7core_error_toNat t V⟩⟩

/-! ### `EST1` of two values (rule R67, 40_estimator.md Properties, item 4) -/

theorem est1_of_two_values {V : List Byte} {x y : Byte} (hle : x.toNat ≤ y.toNat) (hx : x ∈ V)
    (hy : y ∈ V) (hall : ∀ v ∈ V, v = x ∨ v = y) : est1 V = (x, y) := by
  rcases Nat.eq_or_lt_of_le hle with heq | hlt
  · obtain rfl := BitVec.eq_of_toNat_eq heq
    exact estimatorOfOneValue V x (List.ne_nil_of_mem hx) fun v hv => (hall v hv).elim id id
  · have hvalues : ∀ z : Nat, (∃ v ∈ V, v.toNat = z) ↔
        ∃ k, k < 2 ∧ z = x.toNat + k * (y.toNat - x.toNat) := by
      intro z
      constructor
      · rintro ⟨v, hv, rfl⟩
        rcases hall v hv with rfl | rfl
        · exact ⟨0, by decide, by omega⟩
        · exact ⟨1, by decide, by omega⟩
      · rintro ⟨k, hk, rfl⟩
        interval_cases k
        · exact ⟨x, hx, by omega⟩
        · exact ⟨y, hy, by omega⟩
    have hlast : x.toNat + (2 - 1) * (y.toNat - x.toNat) = y.toNat := by omega
    rw [estimatorIsExactOnEquallySpacedValues V x.toNat (y.toNat - x.toNat) 2 (by decide) (by omega)
      (by omega) hvalues, hlast, BitVec.ofNat_toNat, BitVec.ofNat_toNat, BitVec.setWidth_eq,
      BitVec.setWidth_eq]

/-! ### A BC4 block of two values (43_bc4_bc5.md, Consequences) -/

/-- A sample that equals entry `k`, and no entry before it, is mapped to `k`. -/
theorem nearest_index_of_dist_eq_zero {α : Type} {dist : α → Nat} {P : Palette α} {k : Nat} {q : α}
    (hk : (paletteEntries P)[k]? = some q) (hq : dist q = 0)
    (hbefore : ∀ j p, j < k → (paletteEntries P)[j]? = some p → dist p ≠ 0) :
    (nearest dist P).index = k := by
  obtain ⟨hle, hlt⟩ := nearest_dist_le dist P hk
  have hitem : dist (nearest dist P).item = 0 := by omega
  have hge : ¬ (nearest dist P).index < k := fun h =>
    hbefore _ _ h (paletteEntries_nearest dist P) hitem
  omega

section
variable {V : Block Byte} {lo hi : Byte}

/-- The endpoints are in ascending order, so the palette has six levels; it begins with the two
values. -/
theorem bc4Palette_of_two_values (hlt : lo.toNat < hi.toNat) (hest : est1 V.toList = (lo, hi)) :
    bc4Palette V = expand1 lo hi .six := by
  have hlevels : bc4Levels lo hi = .six := if_neg (by omega)
  rw [bc4Palette, hest, hlevels]

theorem index_of_two_values (hlt : lo.toNat < hi.toNat) {v : Byte} (hv : v = lo ∨ v = hi) :
    (nearest (absDist v) (expand1 lo hi .six)).index = if v = hi then 1 else 0 := by
  have hne : lo ≠ hi := fun h => absurd (congrArg BitVec.toNat h) (by omega)
  have h0 : (paletteEntries (expand1 lo hi .six))[0]? = some lo := by rw [expand1_six_entries]; rfl
  have h1 : (paletteEntries (expand1 lo hi .six))[1]? = some hi := by rw [expand1_six_entries]; rfl
  rcases hv with rfl | rfl
  · rw [if_neg hne]
    exact nearest_index_of_dist_eq_zero h0 ((absDist_eq_zero _ _).2 rfl) fun j _ hj _ =>
      absurd hj (Nat.not_lt_zero j)
  · rw [if_pos rfl]
    refine nearest_index_of_dist_eq_zero h1 ((absDist_eq_zero _ _).2 rfl) fun j p hj hp => ?_
    obtain rfl : j = 0 := by omega
    obtain rfl := Option.some.inj (h0.symm.trans hp)
    exact fun hzero => hne ((absDist_eq_zero _ _).1 hzero).symm

theorem bc4core_error_of_two_values (hlt : lo.toNat < hi.toNat) (hest : est1 V.toList = (lo, hi))
    (hall : ∀ v ∈ V.toList, v = lo ∨ v = hi) : (bc4core V).2 = 0 := by
  rw [bc4core_error, map1, mapWith_error_eq_zero_iff absDist_eq_zero,
    bc4Palette_of_two_values hlt hest, expand1_six_entries]
  intro v hv
  rcases hall v hv with rfl | rfl <;> simp

theorem bc4core_index_of_two_values (hlt : lo.toNat < hi.toNat) (hest : est1 V.toList = (lo, hi))
    (hall : ∀ v ∈ V.toList, v = lo ∨ v = hi) (i : Fin 16) :
    (bc4core V).1.extractLsb' (16 + 3 * i.val) 3 = if V[i] = hi then 1#3 else 0#3 := by
  have hindex := index_of_two_values hlt (hall V[i] (by simp))
  have hstream : (map1 V.toList (bc4Palette V)).1[i.val]? =
      some (nearest (absDist V[i]) (expand1 lo hi .six)).index := by
    simp [map1, mapWith, bc4Palette_of_two_values hlt hest]
  apply BitVec.eq_of_toNat_eq
  rw [bc4core_block, packBc4_index _ _ (fun _ => bc4_index_lt) i.isLt hstream, hindex]
  split_ifs <;> rfl

end

/-- Settles O48: the endpoints are the two values (`est1_of_two_values`), which are entries 0 and 1
of the palette. -/
theorem twoValueBlockIsLossless : Obligations.TwoValueBlockIsLossless := by
  intro V lo hi hlt hlo hhi hall
  have hest := est1_of_two_values hlt.le hlo hhi hall
  refine ⟨?_, ?_, bc4core_error_of_two_values hlt hest hall,
    bc4core_index_of_two_values hlt hest hall⟩
  · rw [bc4core_block, packBc4_endpointA, hest]
  · rw [bc4core_block, packBc4_endpointB, hest]

/-! ### A BC7 block of two colours (44_bc7.md, Consequences) -/

theorem est3_of_two_colours {P : List Colour} {X Y : Colour}
    (hle : ∀ c, (X.get c).toNat ≤ (Y.get c).toNat) (hX : X ∈ P) (hY : Y ∈ P)
    (hall : ∀ p ∈ P, p = X ∨ p = Y) : est3 P = (X, Y) := by
  have hchannel : ∀ c, ((est3 P).1.get c, (est3 P).2.get c) = (X.get c, Y.get c) := by
    intro c
    rw [est3_get]
    refine est1_of_two_values (hle c) (List.mem_map_of_mem hX) (List.mem_map_of_mem hY) ?_
    intro v hv
    obtain ⟨p, hp, rfl⟩ := List.mem_map.1 hv
    exact (hall p hp).imp (congrArg fun q : Colour => q.get c) (congrArg fun q : Colour => q.get c)
  exact Prod.ext (Triple.ext_get fun c => (Prod.mk.inj (hchannel c)).1)
    (Triple.ext_get fun c => (Prod.mk.inj (hchannel c)).2)

/-- Whether one or both of the colours occur, each pixel is one of the two endpoints. -/
theorem eq_endpoint_of_two_colours {P : List Colour} {X Y : Colour}
    (hle : ∀ c, (X.get c).toNat ≤ (Y.get c).toNat) (hall : ∀ p ∈ P, p = X ∨ p = Y) {p : Colour}
    (hp : p ∈ P) : p = (est3 P).1 ∨ p = (est3 P).2 := by
  by_cases hX : X ∈ P
  · by_cases hY : Y ∈ P
    · rw [est3_of_two_colours hle hX hY hall]
      exact hall p hp
    · have honly : ∀ q ∈ P, q = X := fun q hq =>
        (hall q hq).resolve_right fun h => hY (h ▸ hq)
      rw [est3_of_two_colours (fun _ => Nat.le_refl _) hX hX fun q hq => .inl (honly q hq)]
      exact .inl (honly p hp)
  · have honly : ∀ q ∈ P, q = Y := fun q hq => (hall q hq).resolve_left fun h => hX (h ▸ hq)
    have hY : Y ∈ P := honly p hp ▸ hp
    rw [est3_of_two_colours (fun _ => Nat.le_refl _) hY hY fun q hq => .inl (honly q hq)]
    exact .inl (honly p hp)

section
variable {V : Block Colour} {X Y : Colour}

theorem subsetError_of_two_colours (hle : ∀ c, (X.get c).toNat ≤ (Y.get c).toNat)
    (hall : ∀ p ∈ V.toList, p = X ∨ p = Y) (m : PartitionMask) (s : Bool) :
    subsetError m s V = 0 := by
  have hpixels : ∀ p ∈ memberPixels m s V, p = X ∨ p = Y := fun p hp => by
    obtain ⟨i, -, rfl⟩ := List.mem_map.1 hp
    exact hall _ (by simp)
  rw [subsetError, map3, mapWith_error_eq_zero_iff sqDist_eq_zero, subsetPalette, expand3_entries]
  intro p hp
  rcases eq_endpoint_of_two_colours hle hpixels hp with h | h <;> simp [subsetEndpoints, ← h]

theorem candidateError_of_two_colours (hle : ∀ c, (X.get c).toNat ≤ (Y.get c).toNat)
    (hall : ∀ p ∈ V.toList, p = X ∨ p = Y) (m : PartitionMask) : candidateError V m = 0 := by
  rw [candidateError, subsetError_of_two_colours hle hall, subsetError_of_two_colours hle hall]

end

/-- Where entry 0 of the table has no error, it is selected. -/
theorem bc7core_of_first_error_eq_zero {t : PartitionTable} {V : Block Colour}
    (h : candidateError V t.first = 0) : (bc7core t V).part = 0 ∧ (bc7core t V).err = 0 := by
  have hfirst : t.entries[0]? = some t.first := rfl
  obtain ⟨hle, hlt⟩ := bc7core_err_le V hfirst
  omega

/-- Settles O53: the pixels of each subset are among its endpoints (`eq_endpoint_of_two_colours`),
so every partition has error 0 and the first is selected. -/
theorem twoColourBlockSelectsEntryZero : Obligations.TwoColourBlockSelectsEntryZero :=
  fun _ _ _ _ hle hall =>
    have hzero := candidateError_of_two_colours hle hall
    ⟨fun m _ => hzero m, bc7core_of_first_error_eq_zero (hzero _)⟩

end Sys2Proof.Machine

/-! The invariant of the result registers (10_state.md section 5): they are those of one block or of
none, and every step keeps them so. -/

namespace Sys2Proof.Machine

open Safety

/-! ### The results of the encoders (30_encoding.md Part B, rules R16 to R20) -/

theorem bc4core_endpointsOrdered (V : Block Byte) : endpointsOrdered (bc4core V).1 := by
  have hmem : V[0] ∈ V.toList := by simp
  rw [endpointsOrdered, bc4core_block, packBc4_endpointA, packBc4_endpointB]
  exact estimatorEndpointsAreOrdered V.toList (List.ne_nil_of_mem hmem)

theorem placeBc4_low (blk : BitVec 64) : (placeBc4 blk).extractLsb' 0 64 = blk :=
  BitVec.extractLsb'_append_eq_right

theorem placeBc4_high (blk : BitVec 64) : (placeBc4 blk).extractLsb' 64 64 = 0#64 :=
  BitVec.extractLsb'_append_eq_left

theorem holdsBc4_writeResult (V : Block Byte) (s : State) :
    HoldsBc4 (writeResult (bc4Result V) s) := by
  refine ⟨rfl, placeBc4_high _, ?_, ?_, rfl, rfl⟩
  · rw [writeResult_out, bc4Result, placeBc4_low]
    exact bc4core_endpointsOrdered V
  · rw [writeResult_err0, bc4Result, bc4core_error_toNat]
    exact bc4core_error_le V

theorem holdsBc5_writeResult (V0 V1 : Block Byte) (s : State) :
    HoldsBc5 (writeResult (bc5Result V0 V1) s) := by
  refine ⟨rfl, ?_, ?_, ?_, ?_, rfl⟩
  · rw [writeResult_out, bc5Result, packBc5_low]
    exact bc4core_endpointsOrdered V0
  · rw [writeResult_out, bc5Result, packBc5_high]
    exact bc4core_endpointsOrdered V1
  · rw [writeResult_err0, bc5Result, bc4core_error_toNat]
    exact bc4core_error_le V0
  · rw [writeResult_err1, bc5Result, bc4core_error_toNat]
    exact bc4core_error_le V1

theorem bc7core_part_lt_npart (t : PartitionTable) (V : Block Colour) :
    (bc7core t V).part < t.npart :=
  (List.getElem?_eq_some_iff.1 (entries_bc7core_part t V)).1

theorem holdsBc7_writeResult (V : Block Colour) (s : State) :
    HoldsBc7 (writeResult (bc7Result Config.partitionTable V) s) := by
  refine ⟨rfl, packBc7_mode _ _ _ _ _ _, packBc7_partid _ _ _ _ _ _, ?_,
    packBc7_pbits _ _ _ _ _ _, ?_, rfl⟩
  · rw [writeResult_part, bc7Result_part_toNat]
    exact bc7core_part_lt_npart _ V
  · rw [writeResult_err0, bc7Result, bc7core_error_toNat]
    exact bc7core_error_le _ V

/-- An encode command of good shape leaves the registers of its own kind of block. -/
theorem resultsCoherent_writeResult {i : Instr} (hi : isEncode i = true) (s s' : State) :
    ResultsCoherent (writeResult (resultIfGood i s) s') := by
  cases i with
  | enc4 => exact .inr (.inl (holdsBc4_writeResult _ s'))
  | enc5 => exact .inr (.inr (.inl (holdsBc5_writeResult _ _ s')))
  | enc7 => exact .inr (.inr (.inr (holdsBc7_writeResult _ s')))
  | _ => cases hi

/-! ### Steps that write no result -/

/-- The invariant reads the result registers, and `OVALID` only to say that there is no block. -/
theorem resultsCoherent_of_resultOf_eq {s t : State} (h : ResultsCoherent s)
    (hresult : resultOf t = resultOf s) (hovalid : t.ovalid = s.ovalid ∨ t.ovalid = false) :
    ResultsCoherent t := by
  have hfields := hresult
  simp only [resultOf, Result.mk.injEq] at hfields
  obtain ⟨hout, holen, herr0, herr1, hpart⟩ := hfields
  rcases h with ⟨hnone, hinvalid⟩ | hbc4 | hbc5 | hbc7
  · exact .inl ⟨hresult.trans hnone, hovalid.elim (fun h => h.trans hinvalid) id⟩
  · refine .inr (.inl ?_)
    rwa [HoldsBc4, hout, holen, herr0, herr1, hpart]
  · refine .inr (.inr (.inl ?_))
    rwa [HoldsBc5, hout, holen, herr0, herr1, hpart]
  · refine .inr (.inr (.inr ?_))
    rwa [HoldsBc7, hout, holen, herr0, herr1, hpart]

theorem resultsCoherent_resetEvent (s : State) : ResultsCoherent (resetEvent s) :=
  .inl ⟨rfl, rfl⟩

/-- Settles O31: at reset there is no block. -/
theorem resetResultsAreCoherent : Obligations.ResetResultsAreCoherent :=
  resultsCoherent_resetEvent State.reset

/-- Settles O30: a reset leaves no block, an encode command of good shape leaves its own, one of bad
shape only clears `OVALID`, and every other step leaves the result registers alone. -/
theorem stepKeepsResultsCoherent : Obligations.StepKeepsResultsCoherent := by
  intro s t hs hstep
  cases stepEffect_of_step hstep with
  | reset => exact resultsCoherent_resetEvent _
  | encodeGood _ _ hi => exact resultsCoherent_writeResult hi s _
  | encodeBad => exact resultsCoherent_of_resultOf_eq hs rfl (.inr rfl)
  | _ => exact resultsCoherent_of_resultOf_eq hs rfl (.inl rfl)

end Sys2Proof.Machine

/-! Loading a block and encoding it (10_state.md section 2, 60_exceptions.md section 1, recovery): a
list of pushes as one operation on the state, the block it leaves, and the result of the command
after it. -/

namespace Sys2Proof.Machine

open Safety

/-! ### Commands one after the other (rule R37) -/

theorem runCommands_append {is js : List Instr} {s t : State} (h : runCommands is s = .next t) :
    runCommands (is ++ js) s = runCommands js t := by
  induction is generalizing s with
  | nil =>
    obtain rfl := Host.Outcome.next.inj h
    rfl
  | cons i is ih =>
    obtain ⟨s', hexec⟩ : ∃ s', exec i s = .next s' := by
      cases hexec : exec i s with
      | next s' => exact ⟨s', rfl⟩
      | fault r => simp [runCommands, hexec] at h
      | refused r => simp [runCommands, hexec] at h
    simp only [runCommands, hexec, List.cons_append] at h ⊢
    exact ih h

/-- A list of commands, then one more. -/
theorem runCommands_load_then {is : List Instr} {i : Instr} {s t u : State}
    (hload : runCommands is s = .next t) (hexec : exec i t = .next u) :
    runCommands (is ++ [i]) s = .next u := by
  rw [runCommands_append hload]
  simp only [runCommands, hexec]

/-- A list of items executed one by one is a fold of what each of them does. -/
theorem runCommands_map {α : Type} {command : α → Instr} {op : α → State → State}
    (hexec : ∀ a s, exec (command a) s = .next (op a s)) (as : List α) (s : State) :
    runCommands (as.map command) s = .next (as.foldl (fun s a => op a s) s) := by
  induction as generalizing s with
  | nil => rfl
  | cons a as ih => simp only [List.map_cons, runCommands, hexec, ih, List.foldl_cons]

/-! ### Samples appended to a channel (rules R12, R92, R93) -/

/-- `op a` appends the sample `value a` to channel `c`: it goes to the slot of the counter's number,
and the counter goes up by one and stops at 31. -/
structure Appends {α : Type} (c : Channel) (value : α → Byte) (op : α → State → State) : Prop where
  count_eq : ∀ a s, count (op a s) c = min (count s c + 1) 31
  slot_eq : ∀ a s (k : Fin 16),
    slot (op a s) c k = if k.val = count s c then value a else slot s c k

theorem appends_pushSample (c : Channel) : Appends c id (pushSample c) where
  count_eq v s := by simp [count_pushSample]
  slot_eq v s k := by simp [slot_pushSample]

theorem appends_pushEach (c : Channel) : Appends c (fun p : Colour => p.get c) pushEach where
  count_eq p s := count_pushEach p s c
  slot_eq p s k := slot_pushEach p s c k

section
variable {α : Type} {c : Channel} {value : α → Byte} {op : α → State → State}

theorem Appends.count_foldl (h : Appends c value op) (as : List α) (s : State) :
    count (as.foldl (fun s a => op a s) s) c = min (count s c + as.length) 31 := by
  have hlt := count_lt s c
  induction as generalizing s with
  | nil => simp only [List.foldl_nil, List.length_nil]; omega
  | cons a as ih =>
    have hstep := h.count_eq a s
    rw [List.foldl_cons, ih _ (count_lt _ c), hstep, List.length_cons]
    omega

/-- Item number `j` of the list goes to the slot `j` places above the counter. -/
theorem Appends.slot_foldl (h : Appends c value op) (as : List α) (s : State) (k : Fin 16) :
    slot (as.foldl (fun s a => op a s) s) c k =
      if k.val < count s c then slot s c k
      else ((as[k.val - count s c]?).map value).getD (slot s c k) := by
  induction as generalizing s with
  | nil => simp
  | cons a as ih =>
    have hk := k.isLt
    have hcount := h.count_eq a s
    have hlt := count_lt s c
    rw [List.foldl_cons, ih, h.slot_eq, hcount]
    rcases Nat.lt_trichotomy k.val (count s c) with hbelow | hat | habove
    · rw [if_pos (by omega), if_pos hbelow, if_neg (by omega)]
    · rw [if_pos (by omega), if_pos hat, if_neg (by omega), hat]
      simp
    · obtain ⟨d, hd⟩ := Nat.exists_eq_add_of_lt habove
      have hprev : k.val - min (count s c + 1) 31 = d := by omega
      have hcurrent : k.val - count s c = d + 1 := by omega
      rw [if_neg (by omega), if_neg (by omega), if_neg (by omega), hprev, hcurrent,
        List.getElem?_cons_succ]

/-- From an empty counter slot `k` gets item number `k`. -/
theorem Appends.slot_foldl_of_empty (h : Appends c value op) (as : List α) {s : State}
    (hs : count s c = 0) (k : Fin 16) :
    slot (as.foldl (fun s a => op a s) s) c k =
      ((as[k.val]?).map value).getD (slot s c k) := by
  rw [h.slot_foldl, if_neg (by omega), hs, Nat.sub_zero]

/-- Sixteen items from an empty counter are one block. -/
theorem Appends.block_loaded (h : Appends c value op) (V : Block α) {s : State}
    (hs : count s c = 0) :
    count (V.toList.foldl (fun s a => op a s) s) c = 16 ∧
      ∀ k : Fin 16, slot (V.toList.foldl (fun s a => op a s) s) c k = value V[k] := by
  refine ⟨?_, fun k => ?_⟩
  · rw [h.count_foldl, hs, Vector.length_toList]
    rfl
  · rw [h.slot_foldl_of_empty _ hs]
    simp

/-- A list of operations that each leave the flags alone leaves them alone. -/
theorem flags_foldl (hflags : ∀ a s, (op a s).flags = s.flags) (as : List α) (s : State) :
    (as.foldl (fun s a => op a s) s).flags = s.flags := by
  induction as generalizing s with
  | nil => rfl
  | cons a as ih => rw [List.foldl_cons, ih, hflags]

end

/-- Settles O18: the pushes are a fold of `pushSample`, which appends to its channel. -/
theorem pushesFillSlotsInOrderAndSaturate : Obligations.PushesFillSlotsInOrderAndSaturate := by
  intro c vs s hs
  refine ⟨_, runCommands_map (exec_push c) vs s, ?_, fun k => ?_⟩
  · rw [(appends_pushSample c).count_foldl, hs, Nat.zero_add]
  · rw [(appends_pushSample c).slot_foldl_of_empty vs hs, Option.map_id, id]

/-! ### Loading and encoding (rules R103, R120) -/

theorem count_eq_zero_of_cnt {s : State} (h : s.cnt = ⟨0#5, 0#5, 0#5⟩) (c : Channel) :
    count s c = 0 :=
  (count_eq_zero_iff s).2 h c

/-- Settles O23: the pushes leave the block in channel 0 (`Appends.block_loaded`) and raise nothing,
and `ENC4` writes the result of exactly that block. -/
theorem loadedSamplesAreWhatEnc4Encodes : Obligations.LoadedSamplesAreWhatEnc4Encodes := by
  intro V s hs
  obtain ⟨hcount, hslots⟩ := (appends_pushSample .c0).block_loaded V hs
  have hflags := flags_foldl (pushSample_flags .c0) V.toList s
  have hload := runCommands_map (exec_push .c0) V.toList s
  have hencode := exec_enc4_of_good hcount
  rw [sampleBlock_eq_of_slots hslots] at hencode
  exact ⟨_, runCommands_load_then hload hencode, rfl, rfl, rfl, bc4core_error_toNat V, rfl, rfl,
    count_eq_zero_of_cnt rfl, hflags⟩

theorem pixelBlock_eq_of_slots {s : State} {V : Block Colour}
    (h : ∀ c (k : Fin 16), slot s c k = V[k].get c) : pixelBlock s = V := by
  refine Vector.ext fun k hk => ?_
  have hget := pixelBlock_get s ⟨k, hk⟩
  rw [h, h, h] at hget
  exact hget

/-- Settles O24: the vector pushes leave the pixels in the three channels (`Appends.block_loaded`)
and raise nothing, and `ENC7` writes the result of exactly these pixels. -/
theorem loadedPixelsAreWhatEnc7Encodes : Obligations.LoadedPixelsAreWhatEnc7Encodes := by
  intro V s hs
  have hloaded := fun c => (appends_pushEach c).block_loaded V (hs c)
  have hflags := flags_foldl pushEach_flags V.toList s
  have hload := runCommands_map (fun p : Colour => exec_pushv_eq_pushEach p.c0 p.c1 p.c2) V.toList s
  have hencode := exec_enc7_of_good fun c => (hloaded c).1
  rw [pixelBlock_eq_of_slots fun c => (hloaded c).2] at hencode
  exact ⟨_, runCommands_load_then hload hencode, rfl, rfl, rfl, bc7core_error_toNat _ V,
    rfl, bc7Result_part_toNat _ V, count_eq_zero_of_cnt rfl, hflags⟩

/-! ### What an encode command reads (rule R24) -/

theorem slot_eq_of_sampleBlock_eq {s t : State} {c : Channel}
    (h : sampleBlock s c = sampleBlock t c) (k : Fin 16) : slot s c k = slot t c k := by
  rw [← sampleBlock_get, h, sampleBlock_get]

/-- The result is a function of the sample blocks of the channels the command needs. -/
theorem resultIfGood_congr {i : Instr} {s t : State} (hi : isEncode i = true)
    (h : ∀ c ∈ neededChannels i, sampleBlock s c = sampleBlock t c) :
    resultIfGood i s = resultIfGood i t := by
  cases i with
  | enc4 => simp only [resultIfGood, h .c0 (by simp [neededChannels])]
  | enc5 =>
    simp only [resultIfGood, h .c0 (by simp [neededChannels]), h .c1 (by simp [neededChannels])]
  | enc7 =>
    have hpixels : pixelBlock s = pixelBlock t := pixelBlock_eq_of_slots fun c k => by
      rw [slot_eq_of_sampleBlock_eq (h c (by cases c <;> simp [neededChannels])), pixelBlock_get]
      cases c <;> rfl
    simp only [resultIfGood, hpixels]
  | _ => cases hi

/-- Settles O25: both states are of good shape, and the results are equal (`resultIfGood_congr`). -/
theorem encodeResultDependsOnSamplesOnly : Obligations.EncodeResultDependsOnSamplesOnly := by
  intro i s t hi h
  refine ⟨_, _, exec_encode_of_shapeGood hi fun c hc => (h c hc).1,
    exec_encode_of_shapeGood hi fun c hc => (h c hc).2.1, ?_, rfl, rfl⟩
  exact resultIfGood_congr hi fun c hc => (h c hc).2.2

end Sys2Proof.Machine

/-! Unpushed slots (10_state.md section 2): two states that differ only in slots no push has written
are taken by every step to two such states, so no run tells them apart. -/

namespace Sys2Proof.Safety

open Sys2Proof.Machine

/-! ### The relation -/

theorem SameButUnpushed.refl (s : State) : SameButUnpushed s s := ⟨rfl, fun _ _ _ => rfl⟩

section
variable {s t : State}

theorem SameButUnpushed.count_eq (h : SameButUnpushed s t) (c : Channel) :
    count t c = count s c := by
  rw [h.1]
  rfl

theorem SameButUnpushed.host_eq (h : SameButUnpushed s t) : t.host = s.host := by
  rw [h.1]

theorem SameButUnpushed.ports_eq (h : SameButUnpushed s t) : ports s = ports t := by
  rw [h.1]
  rfl

/-- A channel that holds a whole block holds the same block. -/
theorem SameButUnpushed.sampleBlock_eq (h : SameButUnpushed s t) {c : Channel}
    (hc : count s c = 16) : sampleBlock s c = sampleBlock t c :=
  sampleBlock_eq_of_slots fun k => h.2 c k (by omega)

theorem SameButUnpushed.shapeGood_iff (h : SameButUnpushed s t) (i : Instr) :
    shapeGood i t ↔ shapeGood i s := by
  simp only [shapeGood, h.count_eq]

/-! ### Operations that keep it -/

/-- The operation neither reads nor writes the samples. -/
def IgnoresSamples (op : State → State) : Prop :=
  ∀ (s : State) (S : Triple (Block Byte)),
    op { s with samples := S } = { op s with samples := S }

/-- An operation on the other registers that raises no counter leaves no more slots to compare. -/
theorem SameButUnpushed.after_op (h : SameButUnpushed s t) (op : State → State)
    (hop : IgnoresSamples op) (hcount : ∀ c, count (op s) c ≤ count s c) :
    SameButUnpushed (op s) (op t) := by
  obtain ⟨hregisters, hslots⟩ := h
  have hs : (op s).samples = s.samples := congrArg (·.samples) (hop s s.samples)
  have ht : op t = { op s with samples := t.samples } := by
    rw [← hop, ← hregisters]
  have htsamples : (op t).samples = t.samples := congrArg (·.samples) ht
  refine ⟨by rw [htsamples]; exact ht, fun c k hk => ?_⟩
  have hold := hslots c k (Nat.lt_of_lt_of_le hk (hcount c))
  unfold slot at hold ⊢
  rw [hs, htsamples]
  exact hold

theorem count_clearCounters (s : State) (c : Channel) : count (clearCounters s) c = 0 :=
  count_eq_zero_of_cnt (clearCounters_cnt s) c

theorem SameButUnpushed.after_withHost (h : SameButUnpushed s t) (host : List HostEvent) :
    SameButUnpushed { s with host := host } { t with host := host } :=
  h.after_op (fun s => { s with host := host }) (fun _ _ => rfl) fun _ => Nat.le_refl _

theorem SameButUnpushed.after_clearCounters (h : SameButUnpushed s t) :
    SameButUnpushed (clearCounters s) (clearCounters t) :=
  h.after_op clearCounters (fun _ _ => rfl) fun c => by simp [count_clearCounters]

theorem SameButUnpushed.after_clearFlags (h : SameButUnpushed s t) :
    SameButUnpushed (clearFlags s) (clearFlags t) :=
  h.after_op clearFlags (fun _ _ => rfl) fun _ => Nat.le_refl _

theorem SameButUnpushed.after_takeException (h : SameButUnpushed s t) (e : Exception) :
    SameButUnpushed (takeException e s) (takeException e t) := by
  cases e with
  | shape =>
    exact h.after_clearCounters.after_op (fun s => { setFlag .shape s with ovalid := false })
      (fun _ _ => rfl) fun _ => Nat.le_refl _
  | illegal => exact h.after_op (setFlag .illegal) (fun _ _ => rfl) fun _ => Nat.le_refl _

theorem SameButUnpushed.after_writeResult (h : SameButUnpushed s t) (r : Result) :
    SameButUnpushed (writeResult r s) (writeResult r t) :=
  h.after_op (writeResult r) (fun _ _ => rfl) fun _ => Nat.le_refl _

/-- The slot a push makes comparable is the one it writes. -/
theorem SameButUnpushed.after_pushSample (h : SameButUnpushed s t) (c : Channel) (v : Byte) :
    SameButUnpushed (pushSample c v s) (pushSample c v t) := by
  refine ⟨?_, fun c' k hk => ?_⟩
  · rw [h.1]
    rfl
  · rw [count_pushSample] at hk
    rw [slot_pushSample, slot_pushSample, h.count_eq]
    split_ifs with hnew
    · rfl
    · refine h.2 c' k ?_
      split_ifs at hk with hc
      · subst hc
        have hne : k.val ≠ count s c' := fun hk' => hnew ⟨rfl, hk'⟩
        omega
      · exact hk

/-- Reset replaces every slot. -/
theorem SameButUnpushed.after_resetEvent (h : SameButUnpushed s t) :
    SameButUnpushed (resetEvent s) (resetEvent t) := by
  have hreset : resetEvent t = resetEvent s := by rw [resetEvent, h.host_eq]; rfl
  rw [hreset]
  exact .refl _

/-! ### Commands, steps and runs -/

/-- Two results that differ at most in unpushed slots. -/
def SameNext (x y : Host.Outcome State Fault Refusal) : Prop :=
  ∃ s t, x = .next s ∧ y = .next t ∧ SameButUnpushed s t

theorem SameButUnpushed.after_exec_encode (h : SameButUnpushed s t) {i : Instr}
    (hi : isEncode i = true) :
    SameNext (exec i s) (exec i t) := by
  by_cases hshape : shapeGood i s
  · have hresult : resultIfGood i s = resultIfGood i t :=
      resultIfGood_congr hi fun c hc => h.sampleBlock_eq (hshape c hc)
    refine ⟨_, _, exec_encode_of_shapeGood hi hshape,
      exec_encode_of_shapeGood hi ((h.shapeGood_iff i).2 hshape), ?_⟩
    rw [← hresult]
    exact h.after_clearCounters.after_writeResult _
  · exact ⟨_, _, exec_encode_of_not_shapeGood hi hshape,
      exec_encode_of_not_shapeGood hi (mt (h.shapeGood_iff i).1 hshape),
      h.after_takeException .shape⟩

theorem SameButUnpushed.after_exec (h : SameButUnpushed s t) (i : Instr) :
    SameNext (exec i s) (exec i t) := by
  cases i with
  | nop => exact ⟨_, _, exec_nop s, exec_nop t, h⟩
  | clr => exact ⟨_, _, exec_clr s, exec_clr t, h.after_clearCounters⟩
  | push ch v =>
    cases hc : channelOf ch with
    | none =>
      obtain rfl := (channelOf_eq_none_iff ch).1 hc
      exact ⟨_, _, rfl, rfl, h.after_takeException .illegal⟩
    | some c =>
      obtain rfl := (channelOf_eq_some_iff ch c).1 hc
      exact ⟨_, _, exec_push c v s, exec_push c v t, h.after_pushSample c v⟩
  | pushv c0 c1 c2 =>
    exact ⟨_, _, exec_pushv c0 c1 c2 s, exec_pushv c0 c1 c2 t,
      ((h.after_pushSample .c0 c0).after_pushSample .c1 c1).after_pushSample .c2 c2⟩
  | enc4 | enc5 | enc7 => exact h.after_exec_encode rfl
  | clrf => exact ⟨_, _, exec_clrf s, exec_clrf t, h.after_clearFlags⟩

theorem SameButUnpushed.after_acceptCommand (h : SameButUnpushed s t) (w : Word) :
    SameNext (acceptCommand w s) (acceptCommand w t) := by
  unfold acceptCommand
  cases decode w with
  | ok i => exact h.after_exec i
  | error r => exact ⟨_, _, rfl, rfl, h.after_takeException .illegal⟩

/-- The host's list is the same on both sides, so both take the same event. -/
theorem SameButUnpushed.after_step (h : SameButUnpushed s t) : SameNext (step s) (step t) := by
  have hhost := h.host_eq
  cases hs : s.host with
  | nil => exact ⟨s, t, step_of_idle hs, step_of_idle (hhost.trans hs), h⟩
  | cons e rest =>
    cases e with
    | reset =>
      exact ⟨_, _, step_of_reset hs, step_of_reset (hhost.trans hs),
        (h.after_withHost rest).after_resetEvent⟩
    | command w =>
      rw [step_of_command hs, step_of_command (hhost.trans hs)]
      exact (h.after_withHost rest).after_acceptCommand w

end

/-- Settles O32: the relation is kept by every step (`SameButUnpushed.after_step`), so by every run,
and the ports do not show the samples. -/
theorem unpushedSlotsAreNeverObserved : Obligations.UnpushedSlotsAreNeverObserved := by
  intro k
  induction k with
  | zero => exact fun s t h => ⟨s, t, rfl, rfl, h, h.ports_eq⟩
  | succ k ih =>
    intro s t h
    obtain ⟨s', t', hs, ht, h'⟩ := h.after_step
    rw [run_succ k hs, run_succ k ht]
    exact ih s' t' h'

end Sys2Proof.Safety
